-- ==== Sys2Proof/Word.lean ====
section
/-! DEFINITION. The word, the byte and the register number of the LC-3 core (00_scope.md R6). -/

namespace Sys2Proof

/-- A register, a memory word, an address or an instruction word: 16 bits (R6). Addition of words
wraps modulo 65536, which is the spec's `add16` (R8, R10). -/
abbrev Word := BitVec 16

/-- A character code of the keyboard channel or of the output port, and half of a memory word: 8 bits. -/
abbrev Byte := BitVec 8

/-- The number of a general register, always 0 to 7 (R21, R22). -/
abbrev Reg := Fin 8

end Sys2Proof
end

