-- ==== Sys2Proof/Syntax.lean ====
section
/-! DEFINITION. The instructions: one constructor for each row of spec/opcode_table.json
(30_encoding.md R81, R82). Immediates and offsets keep the width of their field; the meanings
sign-extend them. Don't-care bits are dropped (R86), but for RTI and RES, whose fault records the
whole instruction word (R170, R171). -/

namespace Sys2Proof

/-- An LC-3 instruction as decoded. -/
inductive Instr where
  /-- `BR`: mask nzp = instr[11:9], PCoffset9 (R140). -/
  | br (nzp : BitVec 3) (off : BitVec 9)
  /-- `ADD DR, SR1, SR2` (R110). -/
  | addReg (dr sr1 sr2 : Reg)
  /-- `ADD DR, SR1, #imm5` (R111). -/
  | addImm (dr sr1 : Reg) (imm : BitVec 5)
  /-- `LD DR, PCoffset9` (R120). -/
  | ld (dr : Reg) (off : BitVec 9)
  /-- `ST SR, PCoffset9` (R130). -/
  | st (sr : Reg) (off : BitVec 9)
  /-- `JSR PCoffset11` (R142). -/
  | jsr (off : BitVec 11)
  /-- `JSRR BaseR` (R143). -/
  | jsrr (base : Reg)
  /-- `AND DR, SR1, SR2` (R112). -/
  | andReg (dr sr1 sr2 : Reg)
  /-- `AND DR, SR1, #imm5` (R113). -/
  | andImm (dr sr1 : Reg) (imm : BitVec 5)
  /-- `LDR DR, BaseR, #offset6` (R122). -/
  | ldr (dr base : Reg) (off : BitVec 6)
  /-- `STR SR, BaseR, #offset6` (R132). -/
  | str (sr base : Reg) (off : BitVec 6)
  /-- `RTI`, with the ignored bits instr[11:0] (R170). -/
  | rti (ignored : BitVec 12)
  /-- `NOT DR, SR` (R114). -/
  | not (dr sr : Reg)
  /-- `LDI DR, PCoffset9` (R121). -/
  | ldi (dr : Reg) (off : BitVec 9)
  /-- `STI SR, PCoffset9` (R131). -/
  | sti (sr : Reg) (off : BitVec 9)
  /-- `JMP BaseR`; `RET` is `JMP R7` (R141). -/
  | jmp (base : Reg)
  /-- `RES`, the reserved opcode, with the ignored bits instr[11:0] (R171). -/
  | res (ignored : BitVec 12)
  /-- `LEA DR, PCoffset9` (R123). -/
  | lea (dr : Reg) (off : BitVec 9)
  /-- `TRAP` with a vector that has no service (R150, R158); the six services have their own rows. -/
  | trap (vect : BitVec 8)
  /-- `TRAP x20` (R152). -/
  | getc
  /-- `TRAP x21` (R153). -/
  | out
  /-- `TRAP x22` (R154). -/
  | puts
  /-- `TRAP x23`, the service IN (R155). -/
  | inp
  /-- `TRAP x24` (R156). -/
  | putsp
  /-- `TRAP x25` (R157). -/
  | halt
  deriving DecidableEq, Repr

end Sys2Proof
end

