-- ==== Sys2Proof/WellFormed.lean ====
section
/-! DEFINITION. Which instructions of the syntax an instruction word can stand for. Every field has
the width of its bits, so one check is left: a service vector (0x20 to 0x25) decodes to the
constructor of its service and never to `trap` (30_encoding.md, opcode_table.json's last six rows;
44_trap.md R150, R158). -/

namespace Sys2Proof

/-- The vectors with a service, 0x20 to 0x25 (R6, R150). -/
abbrev isServiceVector (v : BitVec 8) : Bool := 0x20 ≤ v.toNat && v.toNat ≤ 0x25

/-- The instruction is one that some 16-bit word encodes. -/
def WellFormed : Instr → Bool
  | .trap v => !isServiceVector v
  | .br _ _ => true
  | .addReg _ _ _ => true
  | .addImm _ _ _ => true
  | .ld _ _ => true
  | .st _ _ => true
  | .jsr _ => true
  | .jsrr _ => true
  | .andReg _ _ _ => true
  | .andImm _ _ _ => true
  | .ldr _ _ _ => true
  | .str _ _ _ => true
  | .rti _ => true
  | .not _ _ => true
  | .ldi _ _ => true
  | .sti _ _ => true
  | .jmp _ => true
  | .res _ => true
  | .lea _ _ => true
  | .getc => true
  | .out => true
  | .puts => true
  | .inp => true
  | .putsp => true
  | .halt => true

end Sys2Proof
end

