-- ==== Sys2Proof/Decode.lean ====
section
/-! DEFINITION. The decoder, total on 16-bit words (30_encoding.md R80 to R88, R91), and an encoder
written from the same formats (R82). No word fails to decode (R85), so there is nothing to reject. -/

namespace Sys2Proof

/-- The 3-bit register field whose lowest bit is `lo` (R83). -/
def regField (w : Word) (lo : Nat) : Reg := (w.extractLsb' lo 3).toFin

/-- A register number as the 3 bits of a field. -/
def regBits (r : Reg) : BitVec 3 := BitVec.ofNat 3 r.val

/-- Opcode 1111: the service whose vector is instr[7:0], before TRAP itself (R150, R158). -/
def decodeTrap (v : BitVec 8) : Instr :=
  if v = 0x20#8 then .getc
  else if v = 0x21#8 then .out
  else if v = 0x22#8 then .puts
  else if v = 0x23#8 then .inp
  else if v = 0x24#8 then .putsp
  else if v = 0x25#8 then .halt
  else .trap v

/-- The instruction a word stands for: by instr[15:12], then by instr[5] for ADD and AND, by
instr[11] for JSR and JSRR, by instr[7:0] for TRAP (R81, R85, R91). The bits marked `x` in R82 are
not read (R86; log entry 12). The opcode numbers are UNVERIFIED (log entry 9), unsafe; the places of
SR2, BaseR and NOT's SR are UNVERIFIED (log entry 11), unsafe. -/
def decode (w : Word) : Instr :=
  match (w.extractLsb' 12 4).toNat with
  | 0 => .br (w.extractLsb' 9 3) (w.extractLsb' 0 9)
  | 1 =>
    if w.getLsbD 5 then .addImm (regField w 9) (regField w 6) (w.extractLsb' 0 5)
    else .addReg (regField w 9) (regField w 6) (regField w 0)
  | 2 => .ld (regField w 9) (w.extractLsb' 0 9)
  | 3 => .st (regField w 9) (w.extractLsb' 0 9)
  | 4 => if w.getLsbD 11 then .jsr (w.extractLsb' 0 11) else .jsrr (regField w 6)
  | 5 =>
    if w.getLsbD 5 then .andImm (regField w 9) (regField w 6) (w.extractLsb' 0 5)
    else .andReg (regField w 9) (regField w 6) (regField w 0)
  | 6 => .ldr (regField w 9) (regField w 6) (w.extractLsb' 0 6)
  | 7 => .str (regField w 9) (regField w 6) (w.extractLsb' 0 6)
  | 8 => .rti (w.extractLsb' 0 12)
  | 9 => .not (regField w 9) (regField w 6)
  | 10 => .ldi (regField w 9) (w.extractLsb' 0 9)
  | 11 => .sti (regField w 9) (w.extractLsb' 0 9)
  | 12 => .jmp (regField w 6)
  | 13 => .res (w.extractLsb' 0 12)
  | 14 => .lea (regField w 9) (w.extractLsb' 0 9)
  | _ => decodeTrap (w.extractLsb' 0 8)

/-- The instruction the decoder reads from the `nbits` low bits of `w`, every bit above them 0. An
instruction is one 16-bit word (R80), so more than 16 bits are no instruction. -/
def decodeTableWord (nbits w : Nat) : Option Instr :=
  if nbits ≤ 16 then some (decode (BitVec.ofNat 16 (w % 2 ^ nbits))) else none

/-- The word of an instruction (R82). Where R82 leaves a bit as don't-care, the encoder writes 1 for
NOT's instr[5:0], as the example 0x997F of R114 has it, and 0 elsewhere (log entry 12). -/
def encode : Instr → Word
  | .br nzp off => 0x0#4 ++ nzp ++ off
  | .addReg dr sr1 sr2 => 0x1#4 ++ regBits dr ++ regBits sr1 ++ 0#1 ++ 0#2 ++ regBits sr2
  | .addImm dr sr1 imm => 0x1#4 ++ regBits dr ++ regBits sr1 ++ 1#1 ++ imm
  | .ld dr off => 0x2#4 ++ regBits dr ++ off
  | .st sr off => 0x3#4 ++ regBits sr ++ off
  | .jsr off => 0x4#4 ++ 1#1 ++ off
  | .jsrr base => 0x4#4 ++ 0#1 ++ 0#2 ++ regBits base ++ 0#6
  | .andReg dr sr1 sr2 => 0x5#4 ++ regBits dr ++ regBits sr1 ++ 0#1 ++ 0#2 ++ regBits sr2
  | .andImm dr sr1 imm => 0x5#4 ++ regBits dr ++ regBits sr1 ++ 1#1 ++ imm
  | .ldr dr base off => 0x6#4 ++ regBits dr ++ regBits base ++ off
  | .str sr base off => 0x7#4 ++ regBits sr ++ regBits base ++ off
  | .rti ignored => 0x8#4 ++ ignored
  | .not dr sr => 0x9#4 ++ regBits dr ++ regBits sr ++ 0x3F#6
  | .ldi dr off => 0xA#4 ++ regBits dr ++ off
  | .sti sr off => 0xB#4 ++ regBits sr ++ off
  | .jmp base => 0xC#4 ++ 0#3 ++ regBits base ++ 0#6
  | .res ignored => 0xD#4 ++ ignored
  | .lea dr off => 0xE#4 ++ regBits dr ++ off
  | .trap v => 0xF#4 ++ 0#4 ++ v
  | .getc => 0xF#4 ++ 0#4 ++ 0x20#8
  | .out => 0xF#4 ++ 0#4 ++ 0x21#8
  | .puts => 0xF#4 ++ 0#4 ++ 0x22#8
  | .inp => 0xF#4 ++ 0#4 ++ 0x23#8
  | .putsp => 0xF#4 ++ 0#4 ++ 0x24#8
  | .halt => 0xF#4 ++ 0#4 ++ 0x25#8

/-- The bits of an instruction's word that are not don't-care in R82. RTI and RES keep all of theirs,
since their fault records the word (R170, R171). -/
def careMask : Instr → Word
  | .addReg _ _ _ => 0xFFE7
  | .andReg _ _ _ => 0xFFE7
  | .not _ _ => 0xFFC0
  | .jmp _ => 0xF1C0
  | .jsrr _ => 0xF9C0
  | .trap _ => 0xF0FF
  | .getc => 0xF0FF
  | .out => 0xF0FF
  | .puts => 0xF0FF
  | .inp => 0xF0FF
  | .putsp => 0xF0FF
  | .halt => 0xF0FF
  | .br _ _ => 0xFFFF
  | .addImm _ _ _ => 0xFFFF
  | .ld _ _ => 0xFFFF
  | .st _ _ => 0xFFFF
  | .jsr _ => 0xFFFF
  | .andImm _ _ _ => 0xFFFF
  | .ldr _ _ _ => 0xFFFF
  | .str _ _ _ => 0xFFFF
  | .rti _ => 0xFFFF
  | .ldi _ _ => 0xFFFF
  | .sti _ _ => 0xFFFF
  | .res _ => 0xFFFF
  | .lea _ _ => 0xFFFF

end Sys2Proof
end

