-- ==== Sys2Proof/Config.lean ====
section
/-! DEFINITION. What an implementation fixes and the spec leaves OPEN (00_scope.md R7): constants with
no body, so that a claim holds whatever their values are (log entry 5, DESIGN CHOICE, safe). -/

namespace Sys2Proof

/-- `P_TRAP_IN_SETS_COND` (R7, D5): whether GETC and IN also set cond from the value written to r0. -/
opaque Config.pTrapInSetsCond : Bool

/-- `P_IN_PROMPT` (R7, D8): the prompt text the IN service emits before it waits. -/
opaque Config.pInPrompt : List Byte

/-- `P_HALT_MESSAGE` (R7, D9): what the HALT service emits, possibly nothing. -/
opaque Config.pHaltMessage : List Byte

/-- The host's keyboard schedule (R7, D14): the keys that arrive just before the `n`-th keyboard
transaction after the ones a state lists. It never ends, it may be silent for ever, and it may send for
ever, so a claim holds for every key schedule (60_exceptions.md R192; log entries 3, 28). -/
opaque Config.hostKeys : Nat → List Byte

end Sys2Proof
end

