-- ==== Sys2Proof/Machine/State.lean ====
section
/-! DEFINITION. The state of the LC-3 core as plain data (10_state.md R20 to R41, 20_memory.md R50 to
R57, R71), the reasons a step can stop, and the state after reset. -/

namespace Sys2Proof.Machine

/-- The memory array (R50), as the cells that do not hold 0. The word at address `a` is the cell
`2 * a` (its bits 15 to 8) and the cell `2 * a + 1` (its bits 7 to 0); no operation of the machine
reads or writes one cell alone (R59; log entry 1, DESIGN CHOICE, safe: not observable). Its form is
`Memory.wf` (Machine/Ops.lean). -/
abbrev Memory := List Host.Cell

/-- The causes of a fatal error with the info each records (R180). Only `raise` puts one into the
state; the machine then stops (R181). -/
inductive Cause where
  /-- Code 1: the loader, before start (R212, R213). -/
  | loadError
  /-- Code 2: RES executed, with the instruction word (R171). -/
  | illegalInstruction (instr : Word)
  /-- Code 3: RTI executed, with the instruction word (R170). -/
  | privilegeViolation (instr : Word)
  /-- Code 4: TRAP with a vector that has no service, with the vector (R158). -/
  | unimplementedTrap (vect : Byte)
  /-- Code 5: a read of 0xFE01 or of 0xFE03 to 0xFFFF, with the address (R52). -/
  | unimplementedMemoryMap (addr : Word)
  /-- Code 6: an internal register index outside 0 to 9. Unreachable: decode never produces one
  (R22), so nothing in the model raises it (log entry 25, safe). -/
  | invalidRegisterIndex (index : Nat)
  deriving DecidableEq, Repr

/-- The run state (R35). -/
inductive RunState where
  /-- Created and loaded, execution not started. -/
  | loaded
  /-- The block executes cycles. -/
  | running
  /-- Ended by a halt; terminal and final. -/
  | halted
  /-- Ended by a fatal error; terminal and not final (R182). -/
  | faulted (cause : Cause)
  deriving DecidableEq, Repr

/-- Which service waits for a key (R152, R155, R159, R195). -/
inductive Hold where
  | getc
  | inp
  deriving DecidableEq, Repr

/-- The host's key schedule from here on, without end (20_memory.md R71, D14): one batch of keys, often
empty, for each keyboard transaction to come. The model's own, not the spec's (log entries 3, 28, DESIGN
CHOICE, safe). -/
structure Schedule where
  /-- The batches of the next transactions, where a state names them. -/
  listed : List (List Byte)
  /-- Which batch of the free schedule `Config.hostKeys` comes first after the listed ones. -/
  turn : Nat
  deriving DecidableEq, Repr

/-- The machine's state, and beside it the host's keyboard channel. -/
structure State where
  /-- r0 to r7 (R20, R21). -/
  x : Vector Word 8
  /-- The program counter (R25). -/
  pc : Word
  /-- The condition register: POS = 0b001, ZRO = 0b010, NEG = 0b100 (R29; log entry 10, UNVERIFIED). -/
  cond : BitVec 3
  /-- The memory array, 65536 words (R50), with the KBDR cache in it (R55). -/
  mem : Memory
  /-- The run state (R35). -/
  run : RunState
  /-- The output port's history, the first code emitted first (R36, R160). -/
  out : List Byte
  /-- The service that waits for a key, if one does (R159; log entry 4). The block takes no cycle
  while this is set. -/
  hold : Option Hold
  /-- The pending-key channel, which belongs to the host (R71), the oldest key first. -/
  keys : List Byte
  /-- The model's own field, not the spec's: the host's key schedule still to come (D14; log entries 3,
  28, DESIGN CHOICE, safe: claims hold for every schedule). Its first batch lands in `keys` just before
  the next keyboard transaction. -/
  arrivals : Schedule
  deriving DecidableEq, Repr

/-- The state at creation, before the loader runs (R40, R57, R210). The keyboard channel is the
host's and has no reset value: "normally empty" (R210). Keys the host holds at the start are the same
as keys of the first batch, which is free (log entry 3, DESIGN CHOICE, safe). -/
def State.reset : State where
  x := Vector.replicate 8 0#16
  pc := 0x3000#16
  cond := 0b000#3
  mem := []
  run := .loaded
  out := []
  hold := none
  keys := []
  arrivals := { listed := [], turn := 0 }

/-- Why the machine can take no step. -/
inductive Fault where
  /-- Raised by `step` alone, on a state whose run is FAULTED: the run has ended in a fatal error,
  which is an error outcome and never a final one (R182). Safe: the machine stops where the spec
  says the process has ended. -/
  | fatal (cause : Cause)
  deriving DecidableEq, Repr

/-- Why the model gives an instruction no meaning. -/
inductive Refusal where
  /-- Raised by an arm of `exec` for an instruction that has no meaning yet; no arm does. Safe: a
  refused instruction proves nothing. -/
  | notModelled (mnemonic : String)
  deriving DecidableEq, Repr

end Sys2Proof.Machine
end

