-- ==== Sys2Proof/Machine/Ops.lean ====
section
/-! DEFINITION. The named operations over memory, registers, the ports and the run state
(10_state.md, 20_memory.md, 44_trap.md section 3, 60_exceptions.md section 1). -/

namespace Sys2Proof.Machine

/-! ## Memory cells -/

/-- The cell at `k`; a cell that is not listed holds 0 (R57: memory is "zero-initialized at
creation"). -/
def cellAt : Memory → Nat → Byte
  | [], _ => 0#8
  | c :: m, k => if c.1 = k then c.2 else cellAt m k

/-- `(k, b)` put before the first cell of a larger address. -/
def insertCell : Memory → Nat → Byte → Memory
  | [], k, b => [(k, b)]
  | c :: m, k, b => if k < c.1 then (k, b) :: c :: m else c :: insertCell m k b

/-- `b` written to the cell `k`: the list stays sorted, and a cell that holds 0 is not listed. -/
def putCell (m : Memory) (k : Nat) (b : Byte) : Memory :=
  if b = 0#8 then m.filter (fun c => c.1 != k) else insertCell (m.filter (fun c => c.1 != k)) k b

/-- The canonical form of a memory: the addresses rise strictly, no listed cell holds 0, and every
cell belongs to one of the 65536 words (R50). -/
abbrev Memory.wf (m : Memory) : Prop :=
  m.Pairwise (fun c d => c.1 < d.1) ∧ ∀ c ∈ m, c.1 < 131072 ∧ c.2 ≠ 0#8

/-! ## The backing array -/

/-- `mem[a]`, the backing word at `a` (R50). -/
def State.word (a : Word) (s : State) : Word :=
  cellAt s.mem (2 * a.toNat) ++ cellAt s.mem (2 * a.toNat + 1)

/-- `mem[a] <- v` (R50). -/
def State.setWord (a v : Word) (s : State) : State :=
  { s with mem :=
      putCell (putCell s.mem (2 * a.toNat) (v.extractLsb' 8 8)) (2 * a.toNat + 1) (v.extractLsb' 0 8) }

/-! ## Registers -/

/-- `x[i]` (R8, R21). -/
def State.reg (i : Reg) (s : State) : Word := s.x[i]

/-- `x[i] <- v`; cond is not changed (R8). -/
def State.setReg (i : Reg) (v : Word) (s : State) : State := { s with x := s.x.set i v }

/-- `pc <- target` (R8). -/
def State.setPc (v : Word) (s : State) : State := { s with pc := v }

/-- `x[7] <- pc`, the link of JSR, JSRR and of every TRAP (R142, R143, R150); no setcc. -/
def State.link (s : State) : State := s.setReg 7 s.pc

/-! ## Run state -/

/-- `run <- S` (R8). -/
def State.setRun (r : RunState) (s : State) : State := { s with run := r }

/-- `raise Fatal(cause, info)`: run becomes FAULTED(cause, info); everything done before the raise
stands, and nothing else changes (R181, R183). This is the block's only way of taking an exception;
there is no handler and no return from one (R184, R187). Log entry 6. -/
def State.raise (c : Cause) (s : State) : State := s.setRun (.faulted c)

/-- The host's start: LOADED becomes RUNNING once (R214). -/
def State.start (s : State) : State := s.setRun .running

/-- The numeric code of a cause (R180, D12); no program can read it. -/
def causeCode : Cause → Nat
  | .loadError => 1
  | .illegalInstruction _ => 2
  | .privilegeViolation _ => 3
  | .unimplementedTrap _ => 4
  | .unimplementedMemoryMap _ => 5
  | .invalidRegisterIndex _ => 6

/-! ## The output port -/

/-- `Emit(c)`: the code goes to the end of the history (R8, R160). -/
def State.emit (c : Byte) (s : State) : State := { s with out := s.out ++ [c] }

/-- One `Emit` for each code of the list, in order (R155, R157). -/
def State.emitAll (cs : List Byte) (s : State) : State := { s with out := s.out ++ cs }

/-! ## The keyboard capability (R71) -/

/-- A host step: one key arrives, behind the keys already pending (R71). -/
def State.hostKey (b : Byte) (s : State) : State := { s with keys := s.keys ++ [b] }

/-- The keys the host sends before the next keyboard transaction (D14): the first listed batch, and
once every listed batch has landed the next one of the free schedule. -/
def Schedule.next (a : Schedule) : List Byte :=
  match a.listed with
  | [] => Config.hostKeys a.turn
  | batch :: _ => batch

/-- The schedule after its first batch has landed. -/
def Schedule.advance (a : Schedule) : Schedule :=
  match a.listed with
  | [] => { a with turn := a.turn + 1 }
  | _ :: rest => { a with listed := rest }

/-- The keys the host sends before the next keyboard transaction arrive (R71, D14; log entries 3, 28).
Between two transactions no arrival can be observed, so this is where every arrival lands. -/
def State.land (s : State) : State :=
  { s.arrivals.next.foldl (fun t b => t.hostKey b) s with arrivals := s.arrivals.advance }

/-- `KbdCheck()`: is a key pending; no side effect of the block's (R71). -/
def State.kbdCheck (s : State) : Bool × State := (!s.land.keys.isEmpty, s.land)

/-- `KbdGet()`: the next key, which is consumed, or `none` (R71). -/
def State.kbdGet (s : State) : Option Byte × State :=
  match s.land.keys with
  | [] => (none, s.land)
  | b :: rest => (some b, { s.land with keys := rest })

/-- `KbsrRead()`: 0x8000 if a key is pending, else 0x0000. No key is consumed and `mem[0xFE00]` is
not written (R54, D20; log entry 21). -/
def kbsrRead (s : State) : Word × State :=
  ((if s.kbdCheck.1 then 0x8000#16 else 0x0000#16), s.kbdCheck.2)

/-- `KbdrRead()`: the next key, zero-extended and stored in `mem[0xFE02]`, or with no key pending
the word `mem[0xFE02]` itself, the KBDR cache (R55, D3; log entry 14). -/
def kbdrRead (s : State) : Word × State :=
  match s.kbdGet with
  | (some b, t) => (b.setWidth 16, t.setWord 0xFE02#16 (b.setWidth 16))
  | (none, t) => (t.word 0xFE02#16, t)

/-! ## The address decoder -/

/-- `MemRead(a, 1)`: the value and the state after it, or `none` where the decoder raises
Fatal(UnimplementedMemoryMap, a), that is, at 0xFE01 and from 0xFE03 up (R52). -/
def memRead (a : Word) (s : State) : Option (Word × State) :=
  if a.toNat < 0xFE00 then some (s.word a, s)
  else if a = 0xFE00#16 then some (kbsrRead s)
  else if a = 0xFE02#16 then some (kbdrRead s)
  else none

/-- `MemWrite(a, 1, v)`: the backing word, at every address; it never faults (R53). -/
def memWrite (a v : Word) (s : State) : State := s.setWord a v

/-- `v <- MemRead(a, 1)` and then `k v`: a read the decoder faults on raises
Fatal(UnimplementedMemoryMap, a), and nothing after it happens (R52, R183). -/
def withRead (a : Word) (s : State) (k : Word → State → State) : State :=
  match memRead a s with
  | some (v, t) => k v t
  | none => s.raise (.unimplementedMemoryMap a)

end Sys2Proof.Machine
end

