-- ==== Sys2Proof/Machine/Flags.lean ====
section
/-! DEFINITION. The condition register's one computation (10_state.md R29 to R33). -/

namespace Sys2Proof.Machine

/-- POS, ZRO or NEG, from the signed reading of `v` (R30). The bit places are UNVERIFIED (R29, log
entry 10; safe but for their pairing with BR's mask). -/
def condOf (v : Word) : BitVec 3 :=
  if 0 < v.toInt then 0b001#3 else if v.toInt < 0 then 0b100#3 else 0b010#3

/-- `setcc(v)`: cond is overwritten whole (R30). -/
def State.setcc (v : Word) (s : State) : State := { s with cond := condOf v }

/-- `if p then setcc(v)` (R152, R155). -/
def State.setccIf (p : Bool) (v : Word) (s : State) : State :=
  { s with cond := if p then condOf v else s.cond }

/-- `x[i] <- v; setcc(v)`, DOC's `set_with_cond` (R30). -/
def State.setWithCond (i : Reg) (v : Word) (s : State) : State := (s.setReg i v).setcc v

end Sys2Proof.Machine
end

