-- ==== Sys2Proof/Machine/Operands.lean ====
section
/-! DEFINITION. The operand forms: sign and zero extension, effective addresses, the bytes of a word
(00_scope.md R8 to R10; 30_encoding.md R83, R84; 20_memory.md R58). -/

namespace Sys2Proof.Machine

/-- `sext_N` of an N-bit field: its two's-complement value as a 16-bit word (R9). -/
def sext {n : Nat} (v : BitVec n) : Word := v.signExtend 16

/-- `sext_N(v)` of a whole word: the low N bits of `v`, sign-extended (R9). -/
def sextLow (n : Nat) (v : Word) : Word := sext (v.setWidth n)

/-- `zext_8` of a key or character code (R8). -/
def zext8 (b : Byte) : Word := b.setWidth 16

/-- Bits 7 to 0 of a word. -/
def lowByte (w : Word) : Byte := w.extractLsb' 0 8

/-- Bits 15 to 8 of a word. -/
def highByte (w : Word) : Byte := w.extractLsb' 8 8

/-- pc plus a sign-extended offset: PCoffset9 of LD, LDI, LEA, ST, STI and BR, PCoffset11 of JSR.
pc is already the instruction's address plus one (R25); the sum wraps (R10). -/
def pcRel {n : Nat} (off : BitVec n) (s : State) : Word := s.pc + sext off

/-- BaseR plus the sign-extended offset6 of LDR and STR (R122, R132); the sum wraps (R10). -/
def baseOff (base : Reg) (off : BitVec 6) (s : State) : Word := s.reg base + sext off

end Sys2Proof.Machine
end

