-- ==== Sys2Proof/Machine/Operate.lean ====
section
/-! DEFINITION. The operate instructions: ADD, AND, NOT (40_operate.md R110 to R116). None of them
can fault, and none reads pc or touches memory. -/

namespace Sys2Proof.Machine

/-- The state a step leaves. -/
abbrev Result := Host.Outcome State Fault Refusal

/-- ADD, register form (R110): the sum wraps and no overflow is recorded (R115). -/
def execAddReg (dr sr1 sr2 : Reg) (s : State) : Result :=
  .next (s.setWithCond dr (s.reg sr1 + s.reg sr2))

/-- ADD, immediate form (R111). -/
def execAddImm (dr sr1 : Reg) (imm : BitVec 5) (s : State) : Result :=
  .next (s.setWithCond dr (s.reg sr1 + sext imm))

/-- AND, register form (R112). -/
def execAndReg (dr sr1 sr2 : Reg) (s : State) : Result :=
  .next (s.setWithCond dr (s.reg sr1 &&& s.reg sr2))

/-- AND, immediate form (R113). -/
def execAndImm (dr sr1 : Reg) (imm : BitVec 5) (s : State) : Result :=
  .next (s.setWithCond dr (s.reg sr1 &&& sext imm))

/-- NOT (R114): the result goes to DR, not to SR (90_conflicts.md C1). -/
def execNot (dr sr : Reg) (s : State) : Result :=
  .next (s.setWithCond dr (~~~ s.reg sr))

end Sys2Proof.Machine
end

