-- ==== Sys2Proof/Machine/Control.lean ====
section
/-! DEFINITION. Control transfer: BR, JMP, JSR, JSRR (43_control.md R140 to R144). There are no delay
slots; a write to pc takes effect at the next fetch. None of them can fault. -/

namespace Sys2Proof.Machine

/-- Whether BR is taken (R140): a mask bit meets cond, or the mask is 0b111. -/
def brTaken (nzp cond : BitVec 3) : Bool := nzp &&& cond != 0b000#3 || nzp == 0b111#3

/-- BR (R140). Which mask bit tests which flag is UNVERIFIED (R29, R82; log entry 10), unsafe. -/
def execBr (nzp : BitVec 3) (off : BitVec 9) (s : State) : Result :=
  .next (if brTaken nzp s.cond then s.setPc (pcRel off s) else s)

/-- JMP; RET is JMP R7 (R141). -/
def execJmp (base : Reg) (s : State) : Result :=
  .next (s.setPc (s.reg base))

/-- JSR (R142). -/
def execJsr (off : BitVec 11) (s : State) : Result :=
  .next (s.link.setPc (pcRel off s))

/-- JSRR (R143): the link is written first and BaseR is read after it, so `JSRR R7` goes on in
sequence. -/
def execJsrr (base : Reg) (s : State) : Result :=
  .next (s.link.setPc (s.link.reg base))

end Sys2Proof.Machine
end

