-- ==== Sys2Proof/Machine/Load.lean ====
section
/-! DEFINITION. The load instructions: LD, LDI, LDR, LEA (41_load.md R120 to R123). Every read goes
through the address decoder; a read that faults writes neither DR nor cond (R183). -/

namespace Sys2Proof.Machine

/-- LD (R120). -/
def execLd (dr : Reg) (off : BitVec 9) (s : State) : Result :=
  .next (withRead (pcRel off s) s fun v t => t.setWithCond dr v)

/-- LDI (R121): the pointer is read first, then the data; a key the first read consumed stays
consumed when the second faults. -/
def execLdi (dr : Reg) (off : BitVec 9) (s : State) : Result :=
  .next (withRead (pcRel off s) s fun p t => withRead p t fun v u => u.setWithCond dr v)

/-- LDR (R122): the address is computed from the old BaseR (R24). -/
def execLdr (dr base : Reg) (off : BitVec 6) (s : State) : Result :=
  .next (withRead (baseOff base off s) s fun v t => t.setWithCond dr v)

/-- LEA (R123): the address itself; it reads no memory and sets cond. -/
def execLea (dr : Reg) (off : BitVec 9) (s : State) : Result :=
  .next (s.setWithCond dr (pcRel off s))

end Sys2Proof.Machine
end

