-- ==== Sys2Proof/Machine/Reserved.lean ====
section
/-! DEFINITION. The always-fatal opcodes, RTI and RES (45_reserved.md R170, R171). The info of their
fatal error is the whole instruction word. -/

namespace Sys2Proof.Machine

/-- RTI (R170): always Fatal(PrivilegeViolation, instr). -/
def execRti (ignored : BitVec 12) (s : State) : Result :=
  .next (s.raise (.privilegeViolation (0x8#4 ++ ignored)))

/-- RES (R171): always Fatal(IllegalInstruction, instr). -/
def execRes (ignored : BitVec 12) (s : State) : Result :=
  .next (s.raise (.illegalInstruction (0xD#4 ++ ignored)))

end Sys2Proof.Machine
end

