-- ==== Sys2Proof/Machine/Store.lean ====
section
/-! DEFINITION. The store instructions: ST, STI, STR (42_store.md R130 to R132). A write never
faults, and no store touches cond. -/

namespace Sys2Proof.Machine

/-- ST (R130). -/
def execSt (sr : Reg) (off : BitVec 9) (s : State) : Result :=
  .next (memWrite (pcRel off s) (s.reg sr) s)

/-- STI (R131): the pointer is read through the address decoder before the write. -/
def execSti (sr : Reg) (off : BitVec 9) (s : State) : Result :=
  .next (withRead (pcRel off s) s fun p t => memWrite p (t.reg sr) t)

/-- STR (R132). -/
def execStr (sr base : Reg) (off : BitVec 6) (s : State) : Result :=
  .next (memWrite (baseOff base off s) (s.reg sr) s)

end Sys2Proof.Machine
end

