-- ==== Sys2Proof/Machine/Trap.lean ====
section
/-! DEFINITION. TRAP and its six services (44_trap.md R150 to R160). Each begins with the entry of
R150, `State.link`; pc does not move. The services run inside the block and read memory through the
address decoder (D2; log entry 13). -/

namespace Sys2Proof.Machine

/-- What GETC and IN do with the key they got: IN echoes it; r0 gets it zero-extended; cond is set
from r0 only if `P_TRAP_IN_SETS_COND` (R152, R155, D4, D5, D8; log entries 5, 15). The hold is over. -/
def deliverKey (h : Hold) (b : Byte) (s : State) : State :=
  let t : State := { s with hold := none }
  let u := match h with
    | .getc => t
    | .inp => t.emit b
  (u.setReg 0 (zext8 b)).setccIf Config.pTrapInSetsCond (zext8 b)

/-- `wait until KbdCheck()`, one poll of it, then `KbdGet()` (R152, R155): with no key pending the
block holds (R159, R195; log entry 4). After a `KbdCheck` that found a key, `KbdGet` finds one (R71),
so the last case is never taken. -/
def awaitKey (h : Hold) (s : State) : State :=
  if s.kbdCheck.1 then
    match s.kbdCheck.2.kbdGet with
    | (some b, t) => deliverKey h b t
    | (none, t) => { t with hold := some h }
  else { s.kbdCheck.2 with hold := some h }

/-- The walk of PUTS from `a` (R154): one character a word, its low byte (D6; log entry 16), up to a
zero word. The number bounds the walk by the distance to the top of memory. -/
def putsWalk : Nat → Word → State → State
  | 0, _, s => s
  | n + 1, a, s =>
    withRead a s fun w t =>
      if w = 0#16 then t else putsWalk n (a + 1#16) (t.emit (lowByte w))

/-- The loop of PUTS from `a`. The read of 0xFFFF faults, so the walk ends before its bound. -/
def putsFrom (a : Word) (s : State) : State := putsWalk (65536 - a.toNat) a s

/-- The walk of PUTSP from `a` (R156): two characters a word, the low byte first, up to a zero
byte. -/
def putspWalk : Nat → Word → State → State
  | 0, _, s => s
  | n + 1, a, s =>
    withRead a s fun w t =>
      if lowByte w = 0#8 then t
      else if highByte w = 0#8 then t.emit (lowByte w)
      else putspWalk n (a + 1#16) ((t.emit (lowByte w)).emit (highByte w))

/-- The loop of PUTSP from `a`. -/
def putspFrom (a : Word) (s : State) : State := putspWalk (65536 - a.toNat) a s

/-- TRAP with a vector that has no service (R150, R158): r7 is written, then the fatal error. -/
def execTrap (vect : BitVec 8) (s : State) : Result :=
  .next (s.link.raise (.unimplementedTrap vect))

/-- GETC, vector 0x20 (R152): unechoed; it does not update the KBDR cache (D4). -/
def execGetc (s : State) : Result := .next (awaitKey .getc s.link)

/-- OUT, vector 0x21 (R153). -/
def execOut (s : State) : Result := .next (s.link.emit (lowByte (s.link.reg 0)))

/-- PUTS, vector 0x22 (R154). -/
def execPuts (s : State) : Result := .next (putsFrom (s.link.reg 0) s.link)

/-- IN, vector 0x23 (R155): the prompt is emitted before the wait. -/
def execIn (s : State) : Result := .next (awaitKey .inp (s.link.emitAll Config.pInPrompt))

/-- PUTSP, vector 0x24 (R156). -/
def execPutsp (s : State) : Result := .next (putspFrom (s.link.reg 0) s.link)

/-- HALT, vector 0x25 (R157): the message, if any, then run becomes HALTED. -/
def execHalt (s : State) : Result :=
  .next ((s.link.emitAll Config.pHaltMessage).setRun .halted)

end Sys2Proof.Machine
end

