-- ==== Sys2Proof/Machine/Cycle.lean ====
section
/-! DEFINITION. The instruction cycle (10_state.md R37 to R39) and the end of a hold (44_trap.md
R159). -/

namespace Sys2Proof.Machine

/-- The top-of-memory check and the pc increment (R37, R38): at 0xFFFF run becomes HALTED and pc
stays. The fetch from 0xFFFF faults first, so that branch is never reached (90_conflicts.md C4; log
entry 25). -/
def State.advance (s : State) : State :=
  if s.pc = 0xFFFF#16 then s.setRun .halted else s.setPc (s.pc + 1#16)

/-- One cycle: fetch through the address decoder (D1; log entry 13), advance, decode, dispatch (R37).
A fetch that faults ends the cycle before pc changes. -/
def cycle (s : State) : Result :=
  match memRead s.pc s with
  | some (w, t) => exec (decode w) t.advance
  | none => .next (s.raise (.unimplementedMemoryMap s.pc))

/-- What a RUNNING block does in a step: one poll of a hold, or one cycle (R37, R159; log entry 4). -/
def runStep (s : State) : Result :=
  match s.hold with
  | some h => .next (awaitKey h s)
  | none => cycle s

end Sys2Proof.Machine
end

