-- ==== Sys2Proof/Machine/Loader.lean ====
section
/-! DEFINITION. Loading the program image, and a launch (70_reset_and_hazards.md R210 to R214). -/

namespace Sys2Proof.Machine

/-- Big-endian words of a byte stream (R211), `none` where a last byte has no partner (R213). -/
def imageWords : List Byte → Option (List Word)
  | [] => some []
  | [_] => none
  | hi :: lo :: rest => (imageWords rest).map fun ws => (hi ++ lo) :: ws

/-- The words stored one after the other from `a` (R211). -/
def State.storeWords : Word → List Word → State → State
  | _, [], s => s
  | a, w :: ws, s => State.storeWords (a + 1#16) ws (s.setWord a w)

/-- The loader (R211 to R213), on the bytes of the image, `none` for an unreadable file. It writes the
backing array and nothing else; an image it refuses raises Fatal(LoadError), so that no
cycle ever runs. That no word of a refused image is stored is the model's choice (log entry 20, DESIGN
CHOICE, safe). Once the run has started the host cannot write memory (R192), so that a
state which is not LOADED stays as it is (log entry 20). -/
def State.load (image : Option (List Byte)) (s : State) : State :=
  if s.run ≠ .loaded then s
  else
    match image.bind imageWords with
    | some (origin :: payload) =>
      if origin.toNat + payload.length ≤ 65536 then s.storeWords origin payload
      else s.raise .loadError
    | _ => s.raise .loadError

/-- A launch (R210, R211): the reset state with the host's keyboard channel, loaded. The first `step`
then starts the run (R214). -/
def State.launch (image : Option (List Byte)) (keys : List Byte) (arrivals : Schedule) : State :=
  State.load image { State.reset with keys := keys, arrivals := arrivals }

end Sys2Proof.Machine
end

