-- ==== Sys2Proof/Machine/Step.lean ====
section
/-! DEFINITION. One step of the machine, and how a word is placed for the next step to run it. -/

namespace Sys2Proof.Machine

/-- One step: the start of a LOADED block (R214), a cycle or a poll of a RUNNING one, nothing in a
HALTED one (R35; log entry 7), the error outcome of a FAULTED one (R182; log entry 6). -/
def step (s : State) : Host.Outcome State Fault Refusal :=
  match s.run with
  | .loaded => .next s.start
  | .running => runStep s
  | .halted => .next s
  | .faulted c => .fault (.fatal c)

/-- `s` with the instruction of bits `w` where the next step fetches: the run started, no hold, and
the word at pc. The device page cannot be filled by a store to memory (R52, R56), so a pc there is
moved to the load origin 0x3000 first (log entry 8). -/
def State.withFetchWord (s : State) (nbits w : Nat) : State :=
  let pc := if s.pc.toNat < 0xFE00 then s.pc else 0x3000#16
  ({ s with pc := pc, run := .running, hold := none }).setWord pc (BitVec.ofNat 16 (w % 2 ^ nbits))

end Sys2Proof.Machine
end

