-- ==== Sys2Proof/Safety.lean ====
section
/-! DEFINITION. The words claims are stated in: what a run may end in, what an instruction left
unchanged, the invariants, and when two states look the same to a program. -/

namespace Sys2Proof.Machine

/-- A state in which the next step is a cycle (10_state.md R37). -/
def Ready (s : State) : Prop := s.run = .running ∧ s.hold = none

/-- A run that has not ended in a fatal error (60_exceptions.md R182, R196). -/
abbrev NotFaulted (s : State) : Prop := ∀ c, s.run ≠ .faulted c

/-! ## Values -/

/-- The integer a two's-complement field stands for, as a word (00_scope.md R9). -/
def signedField {n : Nat} (v : BitVec n) : Word := BitVec.ofInt 16 v.toInt

/-- `c` is the condition value of `v`: POS above zero, NEG below, ZRO at zero (R29, R30). -/
def CondShows (v : Word) (c : BitVec 3) : Prop :=
  (0 < v.toInt → c = 0b001#3) ∧ (v.toInt < 0 → c = 0b100#3) ∧ (v = 0#16 → c = 0b010#3)

/-- The keys pending when the next keyboard transaction happens: those in the channel and those
that arrive just before it (20_memory.md R71). -/
def pendingNow (s : State) : List Byte := s.keys ++ s.arrivals.next

/-- The keys of the schedule's first `n` batches, in the order they arrive. -/
def Schedule.batches : Nat → Schedule → List Byte
  | 0, _ => []
  | n + 1, a => a.next ++ Schedule.batches n a.advance

/-- The schedule after its first `n` batches have landed. -/
def Schedule.after : Nat → Schedule → Schedule
  | 0, a => a
  | n + 1, a => Schedule.after n a.advance

/-- From `s` to `t` the host's next `n` batches arrived, behind the keys pending, and the block consumed
exactly `ks`, from the front (20_memory.md R71). -/
def KeysTaken (ks : List Byte) (n : Nat) (s t : State) : Prop :=
  t.arrivals = s.arrivals.after n ∧ ks ++ t.keys = s.keys ++ s.arrivals.batches n

/-- The low bytes of `n` successive words from `a` (44_trap.md R154). -/
def lowBytes (s : State) (a : Word) (n : Nat) : List Byte :=
  (List.range n).map fun i => (s.word (a + BitVec.ofNat 16 i)).extractLsb' 0 8

/-- Both bytes, the low one first, of `n` successive words from `a` (44_trap.md R156). -/
def packedBytes (s : State) (a : Word) (n : Nat) : List Byte :=
  (List.range n).flatMap fun i =>
    [(s.word (a + BitVec.ofNat 16 i)).extractLsb' 0 8, (s.word (a + BitVec.ofNat 16 i)).extractLsb' 8 8]

/-- The bytes of an image file that holds these big-endian words (70_reset_and_hazards.md R211). -/
def imageBytes (ws : List Word) : List Byte :=
  ws.flatMap fun w => [w.extractLsb' 8 8, w.extractLsb' 0 8]

/-! ## Frames: what `t` has as `s` has it -/

/-- Every general register but `d`. -/
def RegsKeptBut (d : Reg) (s t : State) : Prop := ∀ r, r ≠ d → t.reg r = s.reg r

/-- Every general register. -/
def RegsKept (s t : State) : Prop := ∀ r, t.reg r = s.reg r

/-- Every word of memory but the one at `a`; the words are all the memory there is (R50). -/
def MemKeptBut (a : Word) (s t : State) : Prop := ∀ b, b ≠ a → t.word b = s.word b

/-- Every word of memory. -/
def MemKept (s t : State) : Prop := ∀ b, t.word b = s.word b

/-- The keyboard channel and its schedule. -/
def KeysKept (s t : State) : Prop := t.keys = s.keys ∧ t.arrivals = s.arrivals

/-- The output history, the keyboard channel and its schedule. -/
def PortsKept (s t : State) : Prop := t.out = s.out ∧ KeysKept s t

/-- The run state and the hold. -/
def RunKept (s t : State) : Prop := t.run = s.run ∧ t.hold = s.hold

/-- All but one general register and cond. -/
def KeptButRegCond (d : Reg) (s t : State) : Prop :=
  RegsKeptBut d s t ∧ t.pc = s.pc ∧ MemKept s t ∧ PortsKept s t ∧ RunKept s t

/-- All but r7 and what a trap service does through its ports and the run state. -/
def KeptByTrap (s t : State) : Prop :=
  t.reg 7 = s.pc ∧ RegsKeptBut 7 s t ∧ t.cond = s.cond ∧ t.pc = s.pc ∧ MemKept s t

/-! ## What an instruction may write -/

/-- The general registers an instruction writes (R23). -/
def writtenRegs : Instr → List Reg
  | .br _ _ => []
  | .addReg dr _ _ => [dr]
  | .addImm dr _ _ => [dr]
  | .ld dr _ => [dr]
  | .st _ _ => []
  | .jsr _ => [7]
  | .jsrr _ => [7]
  | .andReg dr _ _ => [dr]
  | .andImm dr _ _ => [dr]
  | .ldr dr _ _ => [dr]
  | .str _ _ _ => []
  | .rti _ => []
  | .not dr _ => [dr]
  | .ldi dr _ => [dr]
  | .sti _ _ => []
  | .jmp _ => []
  | .res _ => []
  | .lea dr _ => [dr]
  | .trap _ => [7]
  | .getc => [7, 0]
  | .out => [7]
  | .puts => [7]
  | .inp => [7, 0]
  | .putsp => [7]
  | .halt => [7]

/-- Whether an instruction writes cond (R31). -/
def writesCond : Instr → Bool
  | .br _ _ => false
  | .addReg _ _ _ => true
  | .addImm _ _ _ => true
  | .ld _ _ => true
  | .st _ _ => false
  | .jsr _ => false
  | .jsrr _ => false
  | .andReg _ _ _ => true
  | .andImm _ _ _ => true
  | .ldr _ _ _ => true
  | .str _ _ _ => false
  | .rti _ => false
  | .not _ _ => true
  | .ldi _ _ => true
  | .sti _ _ => false
  | .jmp _ => false
  | .res _ => false
  | .lea _ _ => true
  | .trap _ => false
  | .getc => Config.pTrapInSetsCond
  | .out => false
  | .puts => false
  | .inp => Config.pTrapInSetsCond
  | .putsp => false
  | .halt => false

/-- Whether an instruction may write pc after the increment (R26). -/
def transfersControl : Instr → Bool
  | .br _ _ => true
  | .addReg _ _ _ => false
  | .addImm _ _ _ => false
  | .ld _ _ => false
  | .st _ _ => false
  | .jsr _ => true
  | .jsrr _ => true
  | .andReg _ _ _ => false
  | .andImm _ _ _ => false
  | .ldr _ _ _ => false
  | .str _ _ _ => false
  | .rti _ => false
  | .not _ _ => false
  | .ldi _ _ => false
  | .sti _ _ => false
  | .jmp _ => true
  | .res _ => false
  | .lea _ _ => false
  | .trap _ => false
  | .getc => false
  | .out => false
  | .puts => false
  | .inp => false
  | .putsp => false
  | .halt => false

/-- Whether an instruction is a store (R61). -/
def isStore : Instr → Bool
  | .br _ _ => false
  | .addReg _ _ _ => false
  | .addImm _ _ _ => false
  | .ld _ _ => false
  | .st _ _ => true
  | .jsr _ => false
  | .jsrr _ => false
  | .andReg _ _ _ => false
  | .andImm _ _ _ => false
  | .ldr _ _ _ => false
  | .str _ _ _ => true
  | .rti _ => false
  | .not _ _ => false
  | .ldi _ _ => false
  | .sti _ _ => true
  | .jmp _ => false
  | .res _ => false
  | .lea _ _ => false
  | .trap _ => false
  | .getc => false
  | .out => false
  | .puts => false
  | .inp => false
  | .putsp => false
  | .halt => false

/-- Whether an instruction may emit codes (R36, R160). -/
def emitsOutput : Instr → Bool
  | .br _ _ => false
  | .addReg _ _ _ => false
  | .addImm _ _ _ => false
  | .ld _ _ => false
  | .st _ _ => false
  | .jsr _ => false
  | .jsrr _ => false
  | .andReg _ _ _ => false
  | .andImm _ _ _ => false
  | .ldr _ _ _ => false
  | .str _ _ _ => false
  | .rti _ => false
  | .not _ _ => false
  | .ldi _ _ => false
  | .sti _ _ => false
  | .jmp _ => false
  | .res _ => false
  | .lea _ _ => false
  | .trap _ => false
  | .getc => false
  | .out => true
  | .puts => true
  | .inp => true
  | .putsp => true
  | .halt => true

/-! ## Invariants -/

/-- cond is 0b000 or exactly one flag (R33). -/
abbrev condLegal (s : State) : Prop :=
  s.cond = 0b000#3 ∨ s.cond = 0b001#3 ∨ s.cond = 0b010#3 ∨ s.cond = 0b100#3

/-- Only a RUNNING block waits for a key (R159, R195). -/
abbrev holdOnlyRunning (s : State) : Prop := s.hold ≠ none → s.run = .running

/-- The words a program can read: everything below the device page, and the KBDR cache (R56). -/
def readableWord (a : Word) : Prop := a.toNat < 0xFE00 ∨ a = 0xFE02#16

/-- The two states differ at most in backing words that no read returns (R56). -/
def SameToProgram (s t : State) : Prop :=
  t = { s with mem := t.mem } ∧ ∀ a, readableWord a → t.word a = s.word a

/-- Two outcomes that a program, the host and the run status cannot tell apart. -/
def SameOutcome : Host.Outcome State Fault Refusal → Host.Outcome State Fault Refusal → Prop
  | .next s, .next t => SameToProgram s t
  | .fault f, .fault g => f = g
  | .refused f, .refused g => f = g
  | _, _ => False

/-- The outcome is a next state that meets the test. -/
def nextWith (o : Host.Outcome State Fault Refusal) (p : State → Bool) : Bool :=
  match o with
  | .next t => p t
  | _ => false

end Sys2Proof.Machine
end

