-- ==== Sys2Proof/Certificates/Slice0/Obligations.lean ====
section
/-! DEFINITION. The statements for the provers. Each docstring names the rules of spec/ it formalises.
A state whose run is FAULTED is not an observation of a program (60_exceptions.md R182); where a
statement says what such a state holds, it is R183's precision, which the spec fixes so that its rules
are total. A clause about the decoder reads the encoding of the instruction's own rule; the opcode
numbers and the places of SR2, BaseR and NOT's SR are the spec's general knowledge (R81, R82; log
entries 9, 11). `[D<n>]` marks a choice the spec calls its own (92_eei_decisions.md). -/

open Sys2Proof Sys2Proof.Machine

/-! ## Encoding -/

/-- 30_encoding.md R82, R83: no field is dropped; every well-formed instruction is decoded from its
own word. -/
def Obligations.DecodeOfEncodeIsIdentity : Prop :=
  ∀ i : Instr, WellFormed i = true → decode (encode i) = i

/-- R85: every 16-bit word stands for an instruction, and the instruction is a well-formed one. -/
def Obligations.DecodedWordsAreWellFormed : Prop :=
  ∀ w : Word, WellFormed (decode w) = true

/-- R82, R86: a word that agrees with another in every bit the other's format reads stands for the
same instruction, and the encoder gives back those bits [D10]. -/
def Obligations.OnlyReadBitsDecideTheInstruction : Prop :=
  ∀ w : Word,
    encode (decode w) &&& careMask (decode w) = w &&& careMask (decode w) ∧
    ∀ w' : Word, w' &&& careMask (decode w) = w &&& careMask (decode w) → decode w' = decode w

/-- The example words of 40_operate.md to 45_reserved.md, written from the spec's encodings: one of
each family. -/
def Obligations.SampleWordsDecodeAsTheSpecWritesThem : Prop :=
  decode 0x1283#16 = .addReg 1 2 3 ∧
  decode 0x697D#16 = .ldr 4 5 (BitVec.ofInt 6 (-3)) ∧
  decode 0x7C9F#16 = .str 6 2 31#6 ∧
  decode 0x05FC#16 = .br 0b010#3 (BitVec.ofInt 9 (-4)) ∧
  decode 0x4C00#16 = .jsr (BitVec.ofInt 11 (-1024)) ∧
  decode 0x41C0#16 = .jsrr 7 ∧
  decode 0xF525#16 = .halt ∧
  decode 0x8FFF#16 = .rti 0xFFF#12

/-! ## Arithmetic of fields -/

/-- 00_scope.md R9: `sext_N(v)` for every N from 1 to 16. -/
def Obligations.SignExtensionReplicatesTheSignBit : Prop :=
  ∀ (n : Nat) (v : Word), 1 ≤ n → n ≤ 16 →
    (sextLow n v).toNat =
      if v.toNat % 2 ^ n < 2 ^ (n - 1) then v.toNat % 2 ^ n else v.toNat % 2 ^ n + (0x10000 - 2 ^ n)

/-! ## Reset, loading, start -/

/-- 10_state.md R40, 20_memory.md R57: what creation leaves, and pc after every load. -/
def Obligations.ResetLeavesTheStatedValues : Prop :=
  (∀ r : Reg, State.reset.reg r = 0x0000#16) ∧ State.reset.pc = 0x3000#16 ∧ State.reset.cond = 0b000#3 ∧
  (∀ a : Word, State.reset.word a = 0x0000#16) ∧ State.reset.run = .loaded ∧ State.reset.out = [] ∧
  ∀ (image : Option (List Byte)) (keys : List Byte) (arrivals : Schedule),
    (State.launch image keys arrivals).pc = 0x3000#16

/-- The model's three invariants hold at reset (R33, R57; log entries 1, 4). -/
def Obligations.ResetMeetsTheInvariants : Prop :=
  State.reset.mem.wf ∧ condLegal State.reset ∧ holdOnlyRunning State.reset

/-- 70_reset_and_hazards.md R211: the words of an image that fits stand one after the other from its
origin, every other word is 0, and the loader writes nothing else. -/
def Obligations.LoaderPlacesBigEndianWordsFromTheOrigin : Prop :=
  ∀ (origin : Word) (ws : List Word) (keys : List Byte) (arrivals : Schedule),
    origin.toNat + ws.length ≤ 0x10000 →
    (∀ i (h : i < ws.length),
      (State.launch (some (imageBytes (origin :: ws))) keys arrivals).word (origin + BitVec.ofNat 16 i)
        = ws[i]) ∧
    (∀ a : Word, (∀ i < ws.length, a ≠ origin + BitVec.ofNat 16 i) →
      (State.launch (some (imageBytes (origin :: ws))) keys arrivals).word a = 0x0000#16) ∧
    State.launch (some (imageBytes (origin :: ws))) keys arrivals =
      { State.reset with
        keys := keys
        arrivals := arrivals
        mem := (State.launch (some (imageBytes (origin :: ws))) keys arrivals).mem }

/-- R212: an unreadable file and a header of fewer than 2 bytes are LoadErrors, after which no cycle
runs; a header alone loads with no memory mutation. That a FAULTED state
answers a fault to `step` is the model's form of it (log entry 6). -/
def Obligations.BadHeaderIsLoadErrorAndBareHeaderIsNoLoad : Prop :=
  ∀ (keys : List Byte) (arrivals : Schedule),
    (∀ image : Option (List Byte), (∀ bytes, image = some bytes → bytes.length < 2) →
      (State.launch image keys arrivals).run = .faulted .loadError ∧
      step (State.launch image keys arrivals) = .fault (.fatal .loadError)) ∧
    ∀ hi lo : Byte, State.launch (some [hi, lo]) keys arrivals =
      { State.reset with keys := keys, arrivals := arrivals }

/-- R213 (the spec's own choice, D15): an odd byte at the end, or a payload that would run past 0xFFFF,
is refused as a LoadError. That a refused image stores no word and changes nothing but run is the model's
choice, of neither R213 nor D15 (log entry 20). -/
def Obligations.IllShapedImageIsRefused : Prop :=
  ∀ (keys : List Byte) (arrivals : Schedule),
    (∀ bytes : List Byte, bytes.length % 2 = 1 →
      State.launch (some bytes) keys arrivals =
        { State.reset with keys := keys, arrivals := arrivals, run := .faulted .loadError }) ∧
    ∀ (origin : Word) (ws : List Word), 0x10000 < origin.toNat + ws.length →
      State.launch (some (imageBytes (origin :: ws))) keys arrivals =
        { State.reset with keys := keys, arrivals := arrivals, run := .faulted .loadError }

/-- R214: a launch that loaded has pc = 0x3000 whatever the origin, and its first step starts the run
and changes run alone. That the start is a step of its own is the model's choice (log entry 8). -/
def Obligations.FirstCycleFetchesFromLoadOrigin : Prop :=
  ∀ (image : Option (List Byte)) (keys : List Byte) (arrivals : Schedule),
    (State.launch image keys arrivals).run = .loaded →
    (State.launch image keys arrivals).pc = 0x3000#16 ∧
    step (State.launch image keys arrivals) =
      .next { State.launch image keys arrivals with run := .running }

/-! ## The cycle -/

/-- 10_state.md R37 [D1], R38 [D13]: a RUNNING block that waits for no key fetches at pc through the address
decoder, advances pc by one and runs the decoded instruction, and a pc of 0xFFFF never gets that far;
a fetch that faults ends the cycle before pc changes. -/
def Obligations.StepRunsTheDecodedInstruction : Prop :=
  ∀ s : State, Ready s →
    (∀ w u, memRead s.pc s = some (w, u) →
      s.pc ≠ 0xFFFF#16 ∧ step s = exec (decode w) { u with pc := s.pc + 1#16 }) ∧
    (memRead s.pc s = none →
      ∃ t, step s = .next t ∧ t.run = .faulted (.unimplementedMemoryMap s.pc) ∧ t.pc = s.pc ∧
        t.out = s.out)

/-- 20_memory.md R69: a store to the address of the next instruction is what the next fetch reads. -/
def Obligations.StoreIsSeenByTheNextFetch : Prop :=
  ∀ (s t : State) (sr base : Reg) (off : BitVec 6), Ready s → s.pc.toNat < 0xFE00 →
    (exec (.st sr 0#9) s = .next t →
      step t = exec (decode (s.reg sr)) { t with pc := s.pc + 1#16 }) ∧
    (exec (.str sr base off) s = .next t → s.reg base + signedField off = s.pc →
      step t = exec (decode (s.reg sr)) { t with pc := s.pc + 1#16 })

/-! ## The address decoder -/

/-- R52: which reads are memory, which are the keyboard, which are fatal. -/
def Obligations.ReadDecoderFollowsTheAddressMap : Prop :=
  ∀ (a : Word) (s : State),
    (a.toNat < 0xFE00 → memRead a s = some (s.word a, s)) ∧
    (a = 0xFE00#16 → memRead a s = some (kbsrRead s)) ∧
    (a = 0xFE02#16 → memRead a s = some (kbdrRead s)) ∧
    (a = 0xFE01#16 ∨ 0xFE03 ≤ a.toNat →
      ∀ k, withRead a s k = { s with run := .faulted (.unimplementedMemoryMap a) })

/-- R54 [D20]: a KBSR read is 0x8000 if a key is pending at that moment and else 0; it consumes no key and
writes nothing. Which keys arrive before the
read is the model's schedule (log entries 3, 28), any and without end. -/
def Obligations.StatusReadPeeksAtTheKeyboard : Prop :=
  ∀ s : State,
    (kbsrRead s).1 = (if pendingNow s = [] then 0x0000#16 else 0x8000#16) ∧
    (kbsrRead s).2 = { s with keys := pendingNow s, arrivals := s.arrivals.advance }

/-- R55 [D3]: a KBDR read takes the oldest pending key, zero-extends it and caches it in mem[0xFE02]; with
no key pending it returns the cached word (log entries 3, 14). -/
def Obligations.DataReadTakesKeyOrReturnsCache : Prop :=
  ∀ s : State,
    (pendingNow s = [] →
      kbdrRead s = (s.word 0xFE02#16, { s with keys := [], arrivals := s.arrivals.advance })) ∧
    ∀ b rest, pendingNow s = b :: rest →
      (kbdrRead s).1.toNat = b.toNat ∧
      (kbdrRead s).2.word 0xFE02#16 = (kbdrRead s).1 ∧ MemKeptBut 0xFE02#16 s (kbdrRead s).2 ∧
      (kbdrRead s).2 =
        { s with keys := rest, arrivals := s.arrivals.advance, mem := (kbdrRead s).2.mem }

/-- 70_reset_and_hazards.md R218: once a KBSR read returned 0x8000, the next KBDR read, GETC or IN
gets a key, the same one whatever keys the host appends in between. -/
def Obligations.ReadyStatusGuaranteesAFreshKey : Prop :=
  ∀ s u : State, memRead 0xFE00#16 s = some (0x8000#16, u) →
    ∃ b rest, u.keys = b :: rest ∧
      ∀ (v : State) (ks : List Byte), v.keys = u.keys ++ ks →
        (∃ t, memRead 0xFE02#16 v = some (b.setWidth 16, t)) ∧
        (∃ t, exec .getc v = .next t ∧ t.reg 0 = b.setWidth 16 ∧ t.hold = none) ∧
        ∃ t, exec .inp v = .next t ∧ t.reg 0 = b.setWidth 16 ∧ t.hold = none

/-! ## Operate instructions -/

/-- 40_operate.md R110, with R115's sum modulo 2^16. -/
def Obligations.AddRegisterWritesWrappedSum : Prop :=
  ∀ (dr sr1 sr2 : Reg) (xx : BitVec 2) (s : State),
    decode (0x1#4 ++ regBits dr ++ regBits sr1 ++ 0#1 ++ xx ++ regBits sr2) = .addReg dr sr1 sr2 ∧
    ∃ t, exec (.addReg dr sr1 sr2) s = .next t ∧
      (t.reg dr).toNat = ((s.reg sr1).toNat + (s.reg sr2).toNat) % 0x10000 ∧
      CondShows (t.reg dr) t.cond ∧ KeptButRegCond dr s t

/-- R111. -/
def Obligations.AddImmediateWritesWrappedSum : Prop :=
  ∀ (dr sr1 : Reg) (imm : BitVec 5) (s : State),
    decode (0x1#4 ++ regBits dr ++ regBits sr1 ++ 1#1 ++ imm) = .addImm dr sr1 imm ∧
    ∃ t, exec (.addImm dr sr1 imm) s = .next t ∧
      ((t.reg dr).toNat : Int) = ((s.reg sr1).toNat + imm.toInt) % 0x10000 ∧
      CondShows (t.reg dr) t.cond ∧ KeptButRegCond dr s t

/-- R112. -/
def Obligations.AndRegisterWritesBitwiseAnd : Prop :=
  ∀ (dr sr1 sr2 : Reg) (xx : BitVec 2) (s : State),
    decode (0x5#4 ++ regBits dr ++ regBits sr1 ++ 0#1 ++ xx ++ regBits sr2) = .andReg dr sr1 sr2 ∧
    ∃ t, exec (.andReg dr sr1 sr2) s = .next t ∧
      (∀ b, (t.reg dr).getLsbD b = ((s.reg sr1).getLsbD b && (s.reg sr2).getLsbD b)) ∧
      CondShows (t.reg dr) t.cond ∧ KeptButRegCond dr s t

/-- R113: the immediate's sign bit fills the bits above it. -/
def Obligations.AndImmediateWritesBitwiseAnd : Prop :=
  ∀ (dr sr1 : Reg) (imm : BitVec 5) (s : State),
    decode (0x5#4 ++ regBits dr ++ regBits sr1 ++ 1#1 ++ imm) = .andImm dr sr1 imm ∧
    ∃ t, exec (.andImm dr sr1 imm) s = .next t ∧
      (∀ b < 16, (t.reg dr).getLsbD b = ((s.reg sr1).getLsbD b && imm.getLsbD (min b 4))) ∧
      CondShows (t.reg dr) t.cond ∧ KeptButRegCond dr s t

/-- R114: the complement of SR goes to DR (90_conflicts.md C1). -/
def Obligations.NotWritesComplementToDestination : Prop :=
  ∀ (dr sr : Reg) (xx : BitVec 6) (s : State),
    decode (0x9#4 ++ regBits dr ++ regBits sr ++ xx) = .not dr sr ∧
    ∃ t, exec (.not dr sr) s = .next t ∧
      (∀ b < 16, (t.reg dr).getLsbD b = !(s.reg sr).getLsbD b) ∧
      CondShows (t.reg dr) t.cond ∧ KeptButRegCond dr s t

/-! ## Load instructions -/

/-- 41_load.md R123: the address itself, with flags, and no memory access. -/
def Obligations.LeaWritesTheEffectiveAddress : Prop :=
  ∀ (dr : Reg) (off : BitVec 9) (s : State),
    decode (0xE#4 ++ regBits dr ++ off) = .lea dr off ∧
    ∃ t, exec (.lea dr off) s = .next t ∧ t.reg dr = s.pc + signedField off ∧
      CondShows (t.reg dr) t.cond ∧ KeptButRegCond dr s t

/-- R120: the word the decoder reads at pc plus the offset, with flags; where the decoder faults, the
fatal error and nothing else. -/
def Obligations.LdLoadsThroughTheReadDecoder : Prop :=
  ∀ (dr : Reg) (off : BitVec 9) (s : State),
    decode (0x2#4 ++ regBits dr ++ off) = .ld dr off ∧
    (∀ v u, memRead (s.pc + signedField off) s = some (v, u) →
      ∃ t, exec (.ld dr off) s = .next t ∧ t.reg dr = v ∧ CondShows v t.cond ∧
        RegsKeptBut dr s t ∧ t.pc = s.pc ∧ t.out = s.out ∧ RunKept s t ∧
        MemKept u t ∧ MemKeptBut 0xFE02#16 s t ∧ (s.pc + signedField off ≠ 0xFE02#16 → MemKept s t) ∧
        KeysKept u t) ∧
    (memRead (s.pc + signedField off) s = none →
      exec (.ld dr off) s =
        .next { s with run := .faulted (.unimplementedMemoryMap (s.pc + signedField off)) })

/-- R122: as LD, from BaseR plus offset6; the address is computed from the old BaseR. -/
def Obligations.LdrLoadsThroughTheReadDecoder : Prop :=
  ∀ (dr base : Reg) (off : BitVec 6) (s : State),
    decode (0x6#4 ++ regBits dr ++ regBits base ++ off) = .ldr dr base off ∧
    (∀ v u, memRead (s.reg base + signedField off) s = some (v, u) →
      ∃ t, exec (.ldr dr base off) s = .next t ∧ t.reg dr = v ∧ CondShows v t.cond ∧
        RegsKeptBut dr s t ∧ t.pc = s.pc ∧ t.out = s.out ∧ RunKept s t ∧
        MemKept u t ∧ MemKeptBut 0xFE02#16 s t ∧ (s.reg base + signedField off ≠ 0xFE02#16 → MemKept s t) ∧
        KeysKept u t) ∧
    (memRead (s.reg base + signedField off) s = none →
      exec (.ldr dr base off) s =
        .next { s with run := .faulted (.unimplementedMemoryMap (s.reg base + signedField off)) })

/-- R121: the pointer is read first, then the data; where either read faults, the fatal error, and
what the first read did stands. -/
def Obligations.LdiLoadsThroughThePointer : Prop :=
  ∀ (dr : Reg) (off : BitVec 9) (s : State),
    decode (0xA#4 ++ regBits dr ++ off) = .ldi dr off ∧
    (∀ p u, memRead (s.pc + signedField off) s = some (p, u) →
      (∀ v u', memRead p u = some (v, u') →
        ∃ t, exec (.ldi dr off) s = .next t ∧ t.reg dr = v ∧ CondShows v t.cond ∧
          RegsKeptBut dr s t ∧ t.pc = s.pc ∧ t.out = s.out ∧ RunKept s t ∧
          MemKept u' t ∧ MemKeptBut 0xFE02#16 s t ∧
          (s.pc + signedField off ≠ 0xFE02#16 → p ≠ 0xFE02#16 → MemKept s t) ∧ KeysKept u' t) ∧
      (memRead p u = none →
        exec (.ldi dr off) s = .next { u with run := .faulted (.unimplementedMemoryMap p) })) ∧
    (memRead (s.pc + signedField off) s = none →
      exec (.ldi dr off) s =
        .next { s with run := .faulted (.unimplementedMemoryMap (s.pc + signedField off)) })

/-! ## Store instructions -/

/-- 42_store.md R130, 20_memory.md R53: at every address, the device page among them, and with no
flag touched. -/
def Obligations.StStoresAtPcPlusOffset : Prop :=
  ∀ (sr : Reg) (off : BitVec 9) (s : State),
    decode (0x3#4 ++ regBits sr ++ off) = .st sr off ∧
    ∃ t, exec (.st sr off) s = .next t ∧ t.word (s.pc + signedField off) = s.reg sr ∧
      MemKeptBut (s.pc + signedField off) s t ∧
      RegsKept s t ∧ t.cond = s.cond ∧ t.pc = s.pc ∧ PortsKept s t ∧ RunKept s t

/-- R132. -/
def Obligations.StrStoresAtBasePlusOffset : Prop :=
  ∀ (sr base : Reg) (off : BitVec 6) (s : State),
    decode (0x7#4 ++ regBits sr ++ regBits base ++ off) = .str sr base off ∧
    ∃ t, exec (.str sr base off) s = .next t ∧ t.word (s.reg base + signedField off) = s.reg sr ∧
      MemKeptBut (s.reg base + signedField off) s t ∧
      RegsKept s t ∧ t.cond = s.cond ∧ t.pc = s.pc ∧ PortsKept s t ∧ RunKept s t

/-- R131: the pointer is read through the decoder, then the word is stored where it points, at every
address; a pointer read that faults writes nothing. -/
def Obligations.StiStoresThroughThePointer : Prop :=
  ∀ (sr : Reg) (off : BitVec 9) (s : State),
    decode (0xB#4 ++ regBits sr ++ off) = .sti sr off ∧
    (∀ p u, memRead (s.pc + signedField off) s = some (p, u) →
      ∃ t, exec (.sti sr off) s = .next t ∧ t.word p = s.reg sr ∧ MemKeptBut p u t ∧
        (∀ b, b ≠ p → b ≠ 0xFE02#16 → t.word b = s.word b) ∧
        (s.pc + signedField off ≠ 0xFE02#16 → MemKeptBut p s t) ∧
        RegsKept s t ∧ t.cond = s.cond ∧ t.pc = s.pc ∧ t.out = s.out ∧ KeysKept u t ∧ RunKept s t) ∧
    (memRead (s.pc + signedField off) s = none →
      exec (.sti sr off) s =
        .next { s with run := .faulted (.unimplementedMemoryMap (s.pc + signedField off)) })

/-! ## Control transfer -/

/-- 43_control.md R140: pc moves by the offset if the mask meets cond or is 0b111, and nothing else
changes. -/
def Obligations.BrMovesPcWhenMaskMeetsCond : Prop :=
  ∀ (nzp : BitVec 3) (off : BitVec 9) (s : State),
    decode (0x0#4 ++ nzp ++ off) = .br nzp off ∧
    ∃ t, exec (.br nzp off) s = .next t ∧
      (nzp &&& s.cond ≠ 0b000#3 ∨ nzp = 0b111#3 → t.pc = s.pc + signedField off) ∧
      (nzp &&& s.cond = 0b000#3 → nzp ≠ 0b111#3 → t.pc = s.pc) ∧
      RegsKept s t ∧ t.cond = s.cond ∧ MemKept s t ∧ PortsKept s t ∧ RunKept s t

/-- R140 with the flags of R29, in a state whose cond is one the machine can hold (R33): the branch is
taken exactly on the flag a mask bit names, or with all three. Offset 0 is shut out only because a
taken branch of offset 0 cannot be told from one not taken. The pairing is the spec's general knowledge
(R29; log entry 10). -/
def Obligations.BrIsTakenExactlyOnTheNamedFlags : Prop :=
  ∀ (n z p : Bool) (off : BitVec 9) (s t : State), condLegal s → off ≠ 0#9 →
    exec (.br (BitVec.ofBool n ++ BitVec.ofBool z ++ BitVec.ofBool p) off) s = .next t →
    (t.pc = s.pc + signedField off ↔
      (n = true ∧ s.cond = 0b100#3) ∨ (z = true ∧ s.cond = 0b010#3) ∨ (p = true ∧ s.cond = 0b001#3) ∨
        (n = true ∧ z = true ∧ p = true))

/-- R141. -/
def Obligations.JmpSetsPcFromTheRegister : Prop :=
  ∀ (x3 : BitVec 3) (base : Reg) (x6 : BitVec 6) (s : State),
    decode (0xC#4 ++ x3 ++ regBits base ++ x6) = .jmp base ∧
    ∃ t, exec (.jmp base) s = .next t ∧ t.pc = s.reg base ∧
      RegsKept s t ∧ t.cond = s.cond ∧ MemKept s t ∧ PortsKept s t ∧ RunKept s t

/-- R142. -/
def Obligations.JsrLinksAndJumpsRelative : Prop :=
  ∀ (off : BitVec 11) (s : State),
    decode (0x4#4 ++ 1#1 ++ off) = .jsr off ∧
    ∃ t, exec (.jsr off) s = .next t ∧ t.reg 7 = s.pc ∧ t.pc = s.pc + signedField off ∧
      RegsKeptBut 7 s t ∧ t.cond = s.cond ∧ MemKept s t ∧ PortsKept s t ∧ RunKept s t

/-- R143: the link is written before BaseR is read, so that `JSRR R7` goes on in sequence. -/
def Obligations.JsrrLinksBeforeReadingTheBase : Prop :=
  ∀ (x2 : BitVec 2) (base : Reg) (x6 : BitVec 6) (s : State),
    decode (0x4#4 ++ 0#1 ++ x2 ++ regBits base ++ x6) = .jsrr base ∧
    ∃ t, exec (.jsrr base) s = .next t ∧ t.reg 7 = s.pc ∧
      (base ≠ 7 → t.pc = s.reg base) ∧ (base = 7 → t.pc = s.pc) ∧
      RegsKeptBut 7 s t ∧ t.cond = s.cond ∧ MemKept s t ∧ PortsKept s t ∧ RunKept s t

/-! ## Traps -/

/-- 44_trap.md R158: every vector outside 0x20 to 0x25 is fatal with the vector, after the link. The
clause on `exec` speaks of every vector field: for 0x20 to 0x25 it is about an ill-formed `trap`, which no
word decodes to, and that `exec` answers the same fatal error there is the model's choice (log entry
27). -/
def Obligations.UndefinedVectorIsFatal : Prop :=
  ∀ (x4 : BitVec 4) (v : BitVec 8) (s : State),
    (v.toNat < 0x20 ∨ 0x25 < v.toNat → decode (0xF#4 ++ x4 ++ v) = .trap v) ∧
    ∃ t, exec (.trap v) s = .next t ∧ t.run = .faulted (.unimplementedTrap v) ∧ KeptByTrap s t ∧
      PortsKept s t ∧ t.hold = s.hold

/-- R152 [D4, D5] with a key pending at the poll: r0 gets it zero-extended, no echo, cond only if
`P_TRAP_IN_SETS_COND`, and exactly that key is consumed. With none pending GETC holds: only the link
is written; that a hold is a next state is the model's choice (log entry 4). -/
def Obligations.GetcReadsOneKeyOrHolds : Prop :=
  ∀ (x4 : BitVec 4) (s : State),
    decode (0xF#4 ++ x4 ++ 0x20#8) = .getc ∧
    (∀ b rest, pendingNow s = b :: rest →
      ∃ t, exec .getc s = .next t ∧ (t.reg 0).toNat = b.toNat ∧ t.reg 7 = s.pc ∧
        (∀ r, r ≠ 0 → r ≠ 7 → t.reg r = s.reg r) ∧
        (if Config.pTrapInSetsCond then CondShows (t.reg 0) t.cond else t.cond = s.cond) ∧
        t.out = s.out ∧ (∃ n, KeysTaken [b] n s t) ∧
        t.pc = s.pc ∧ MemKept s t ∧ t.run = s.run ∧ t.hold = none) ∧
    (pendingNow s = [] →
      ∃ t, exec .getc s = .next t ∧ t.hold = some .getc ∧ KeptByTrap s t ∧ t.out = s.out ∧
        (∃ n, KeysTaken [] n s t) ∧ t.run = s.run)

/-- R155 [D4, D5, D8]: the prompt, then as GETC, with the key echoed once after the read; r0 as IN's
register and the text of the prompt are not DOC's (log entries 4, 5, 15). -/
def Obligations.InPromptsEchoesAndReadsOneKey : Prop :=
  ∀ (x4 : BitVec 4) (s : State),
    decode (0xF#4 ++ x4 ++ 0x23#8) = .inp ∧
    (∀ b rest, pendingNow s = b :: rest →
      ∃ t, exec .inp s = .next t ∧ (t.reg 0).toNat = b.toNat ∧ t.reg 7 = s.pc ∧
        (∀ r, r ≠ 0 → r ≠ 7 → t.reg r = s.reg r) ∧
        (if Config.pTrapInSetsCond then CondShows (t.reg 0) t.cond else t.cond = s.cond) ∧
        t.out = s.out ++ Config.pInPrompt ++ [b] ∧ (∃ n, KeysTaken [b] n s t) ∧
        t.pc = s.pc ∧ MemKept s t ∧ t.run = s.run ∧ t.hold = none) ∧
    (pendingNow s = [] →
      ∃ t, exec .inp s = .next t ∧ t.hold = some .inp ∧ KeptByTrap s t ∧
        t.out = s.out ++ Config.pInPrompt ∧ (∃ n, KeysTaken [] n s t) ∧ t.run = s.run)

/-- R159, R195: a held block takes no cycle; it goes on holding, with nothing changed but the arrival
of keys, until a key is pending, and then the service it waits in ends with that key. That a hold
takes a step for each poll is the model's choice (log entry 4). -/
def Obligations.HoldEndsOnlyWithAKey : Prop :=
  ∀ (s : State) (h : Hold), s.run = .running → s.hold = some h →
    (pendingNow s = [] →
      step s = .next { s with keys := [], arrivals := s.arrivals.advance }) ∧
    ∀ b rest, pendingNow s = b :: rest →
      ∃ t, step s = .next t ∧ t.hold = none ∧ (t.reg 0).toNat = b.toNat ∧ RegsKeptBut 0 s t ∧
        t.out = s.out ++ (if h = .inp then [b] else []) ∧ (∃ n, KeysTaken [b] n s t) ∧
        (if Config.pTrapInSetsCond then CondShows (t.reg 0) t.cond else t.cond = s.cond) ∧
        t.pc = s.pc ∧ MemKept s t ∧ t.run = .running

/-- R153: the low byte of r0. -/
def Obligations.OutEmitsTheLowByteOfR0 : Prop :=
  ∀ (x4 : BitVec 4) (s : State),
    decode (0xF#4 ++ x4 ++ 0x21#8) = .out ∧
    ∃ t c, exec .out s = .next t ∧ t.out = s.out ++ [c] ∧ c.toNat = (s.reg 0).toNat % 256 ∧
      KeptByTrap s t ∧ KeysKept s t ∧ RunKept s t

/-- R154 [D2, D6] (DOC's property): a string of words below the device page is emitted word by word, low byte
each, up to the first zero word and without it. -/
def Obligations.PutsEmitsWordsUpToTheZeroWord : Prop :=
  ∀ (x4 : BitVec 4) (s : State) (n : Nat),
    decode (0xF#4 ++ x4 ++ 0x22#8) = .puts ∧
    ((s.reg 0).toNat + n < 0xFE00 →
      (∀ i < n, s.word (s.reg 0 + BitVec.ofNat 16 i) ≠ 0#16) →
      s.word (s.reg 0 + BitVec.ofNat 16 n) = 0#16 →
      ∃ t, exec .puts s = .next t ∧ t.out = s.out ++ lowBytes s (s.reg 0) n ∧
        KeptByTrap s t ∧ KeysKept s t ∧ RunKept s t)

/-- R154's loop [D2, D6; log entries 13, 16], from every address and in every state: read through the decoder, stop at a zero
word, else emit the low byte and go on at the next address; a read that faults is fatal there. -/
def Obligations.PutsFollowsItsLoop : Prop :=
  (∀ s : State, exec .puts s = .next (putsFrom (s.reg 0) s.link)) ∧
  ∀ (a : Word) (s : State),
    (memRead a s = none → putsFrom a s = { s with run := .faulted (.unimplementedMemoryMap a) }) ∧
    (∀ u, memRead a s = some (0x0000#16, u) → putsFrom a s = u) ∧
    ∀ w u, w ≠ 0x0000#16 → memRead a s = some (w, u) →
      putsFrom a s = putsFrom (a + 1#16) { u with out := u.out ++ [w.extractLsb' 0 8] }

/-- R154's corner case [D2, D6]: a string that runs into the device page ends at KBSR if no key is pending
there, and else emits 0x00 for it and is fatal at 0xFE01, with what was emitted kept. -/
def Obligations.PutsStopsOrFaultsAtTheDevicePage : Prop :=
  ∀ (s : State) (n : Nat), (s.reg 0).toNat + n = 0xFE00 →
    (∀ i < n, s.word (s.reg 0 + BitVec.ofNat 16 i) ≠ 0#16) →
    (pendingNow s = [] →
      ∃ t, exec .puts s = .next t ∧ t.out = s.out ++ lowBytes s (s.reg 0) n ∧ KeptByTrap s t ∧
        RunKept s t ∧ ∃ n, KeysTaken [] n s t) ∧
    (pendingNow s ≠ [] →
      ∃ t, exec .puts s = .next t ∧ t.run = .faulted (.unimplementedMemoryMap 0xFE01#16) ∧
        t.out = s.out ++ lowBytes s (s.reg 0) n ++ [0x00#8] ∧ KeptByTrap s t ∧ t.hold = s.hold ∧
        ∃ n, KeysTaken [] n s t)

/-- R156 [D2]: two characters a word, the low byte first, up to the first zero byte, which may be the low
or the high byte of the last word. -/
def Obligations.PutspEmitsPackedBytesUpToTheZeroByte : Prop :=
  ∀ (x4 : BitVec 4) (s : State) (n : Nat),
    decode (0xF#4 ++ x4 ++ 0x24#8) = .putsp ∧
    ((s.reg 0).toNat + n < 0xFE00 →
      (∀ c ∈ packedBytes s (s.reg 0) n, c ≠ 0#8) →
      ((s.word (s.reg 0 + BitVec.ofNat 16 n)).extractLsb' 0 8 = 0#8 →
        ∃ t, exec .putsp s = .next t ∧ t.out = s.out ++ packedBytes s (s.reg 0) n ∧
          KeptByTrap s t ∧ KeysKept s t ∧ RunKept s t) ∧
      ((s.word (s.reg 0 + BitVec.ofNat 16 n)).extractLsb' 0 8 ≠ 0#8 →
        (s.word (s.reg 0 + BitVec.ofNat 16 n)).extractLsb' 8 8 = 0#8 →
        ∃ t, exec .putsp s = .next t ∧
          t.out = s.out ++ packedBytes s (s.reg 0) n ++
            [(s.word (s.reg 0 + BitVec.ofNat 16 n)).extractLsb' 0 8] ∧
          KeptByTrap s t ∧ KeysKept s t ∧ RunKept s t))

/-- R156's loop [D2; log entry 13], from every address and in every state. -/
def Obligations.PutspFollowsItsLoop : Prop :=
  (∀ s : State, exec .putsp s = .next (putspFrom (s.reg 0) s.link)) ∧
  ∀ (a : Word) (s : State),
    (memRead a s = none → putspFrom a s = { s with run := .faulted (.unimplementedMemoryMap a) }) ∧
    ∀ lo hi u, memRead a s = some ((hi ++ lo : Word), u) →
      (lo = 0#8 → putspFrom a s = u) ∧
      (lo ≠ 0#8 → hi = 0#8 → putspFrom a s = { u with out := u.out ++ [lo] }) ∧
      (lo ≠ 0#8 → hi ≠ 0#8 → putspFrom a s = putspFrom (a + 1#16) { u with out := u.out ++ [lo, hi] })

/-- R157 [D9]: the message, if there is one (log entry 5), and run becomes HALTED; pc stays after the
HALT. -/
def Obligations.HaltEndsTheRun : Prop :=
  ∀ (x4 : BitVec 4) (s : State),
    decode (0xF#4 ++ x4 ++ 0x25#8) = .halt ∧
    ∃ t, exec .halt s = .next t ∧ t.run = .halted ∧ t.out = s.out ++ Config.pHaltMessage ∧
      KeptByTrap s t ∧ KeysKept s t ∧ t.hold = s.hold

/-! ## Always-fatal opcodes -/

/-- 45_reserved.md R170: always Fatal(PrivilegeViolation, instr), with nothing written. -/
def Obligations.RtiIsAlwaysPrivilegeViolation : Prop :=
  ∀ (x12 : BitVec 12) (s : State),
    decode (0x8#4 ++ x12) = .rti x12 ∧
    ∃ t, exec (.rti x12) s = .next t ∧ t.run = .faulted (.privilegeViolation (0x8#4 ++ x12)) ∧
      RegsKept s t ∧ t.cond = s.cond ∧ t.pc = s.pc ∧ MemKept s t ∧ PortsKept s t ∧ t.hold = s.hold

/-- R171: always Fatal(IllegalInstruction, instr), with nothing written. -/
def Obligations.ResIsAlwaysIllegalInstruction : Prop :=
  ∀ (x12 : BitVec 12) (s : State),
    decode (0xD#4 ++ x12) = .res x12 ∧
    ∃ t, exec (.res x12) s = .next t ∧ t.run = .faulted (.illegalInstruction (0xD#4 ++ x12)) ∧
      RegsKept s t ∧ t.cond = s.cond ∧ t.pc = s.pc ∧ MemKept s t ∧ PortsKept s t ∧ t.hold = s.hold

/-! ## Rules about the whole machine -/

/-- 10_state.md R23: the general registers an instruction may write. -/
def Obligations.OnlyTheNamedRegistersAreWritten : Prop :=
  ∀ (i : Instr) (s t : State) (r : Reg), exec i s = .next t → r ∉ writtenRegs i → t.reg r = s.reg r

/-- R31 [D5]: the instructions that may write cond; GETC and IN only if the parameter says so, and their
end of a hold likewise. -/
def Obligations.OnlyFlagInstructionsWriteCond : Prop :=
  (∀ (i : Instr) (s t : State), exec i s = .next t → writesCond i = false → t.cond = s.cond) ∧
  ∀ s t : State, s.hold ≠ none → step s = .next t → t.cond = s.cond ∨ Config.pTrapInSetsCond = true

/-- R26: after the increment only BR, JMP, JSR and JSRR write pc; a TRAP does not. So every other cycle
leaves pc one past the address it fetched from. -/
def Obligations.OnlyControlTransfersWritePc : Prop :=
  (∀ (i : Instr) (s t : State), exec i s = .next t → transfersControl i = false → t.pc = s.pc) ∧
  ∀ (s u : State) (w : Word), Ready s → memRead s.pc s = some (w, u) →
    transfersControl (decode w) = false → ∃ t, step s = .next t ∧ t.pc = s.pc + 1#16

/-- 20_memory.md R53, R55, R61: only a store writes memory, and any other instruction can change one
word alone, the KBDR cache. -/
def Obligations.OnlyStoresWriteMemoryButTheKeyCache : Prop :=
  ∀ (i : Instr) (s t : State), exec i s = .next t → isStore i = false → MemKeptBut 0xFE02#16 s t

/-- 44_trap.md R160 [D7]: a step adds codes at the end of the output history and never removes one, and
only a TRAP service that emits, or the end of IN's hold, adds any. -/
def Obligations.OutputHistoryOnlyGrows : Prop :=
  (∀ s t : State, step s = .next t → ∃ cs, t.out = s.out ++ cs) ∧
  ∀ (i : Instr) (s t : State), exec i s = .next t → emitsOutput i = false → t.out = s.out

/-- 20_memory.md R71 [D14; log entries 3, 28]: in a step the host's next batches, whatever they are,
arrive behind the keys pending, and the block takes keys from the front alone: none is lost, made up or
reordered. -/
def Obligations.KeysAreConsumedInOrder : Prop :=
  ∀ s t : State, step s = .next t → ∃ ks n, KeysTaken ks n s t

/-- 10_state.md R35 [D11], R22; 60_exceptions.md R196: how run moves. A halt comes from the HALT service
alone, and no step raises LoadError or InvalidRegisterIndex. That the start is a step and that a HALTED
machine steps to itself are the model's choices (log entries 7, 8). -/
def Obligations.RunMovesOnlyAsStated : Prop :=
  ∀ s t : State, step s = .next t →
    ((s.run = .loaded ∧ t.run = .running) ∨ s.run = .running ∨ (s.run = .halted ∧ t = s)) ∧
    (s.run = .running → t.run ≠ .loaded) ∧
    (s.run = .running → t.run = .halted →
      s.hold = none ∧ ∃ w u, memRead s.pc s = some (w, u) ∧ decode w = .halt) ∧
    t.run ≠ .faulted .loadError ∧ ∀ n, t.run ≠ .faulted (.invalidRegisterIndex n)

/-- R35, 60_exceptions.md R182: nothing leaves HALTED, which is final, or FAULTED, which is an error
outcome; for any number of steps. That a HALTED machine steps to itself and a FAULTED one answers a
fault is the model's choice (log entries 6, 7). -/
def Obligations.HaltedAndFaultedAreNeverLeft : Prop :=
  ∀ (k : Nat) (s : State),
    (s.run = .halted → Host.Core.run Sys2Proof.core k s = .next s) ∧
    ∀ c, s.run = .faulted c → Host.Core.run Sys2Proof.core (k + 1) s = .fault (.fatal c)

/-- 30_encoding.md R85, 60_exceptions.md R188: no word fails to decode and every instruction can be
executed, so a RUNNING block always has a next state. That a fatal error is a next state is the model's
choice (log entry 6), and so is that a poll of a hold with no key pending is one, where R159 has the
block take no step (log entry 4). -/
def Obligations.RunningBlockAlwaysHasANextState : Prop :=
  ∀ s : State, s.run = .running → ∃ t, step s = .next t

/-- 10_state.md R33: cond stays one of its four values, and once a flag is set one stays set. -/
def Obligations.StepKeepsCondLegal : Prop :=
  ∀ s t : State, condLegal s → step s = .next t →
    condLegal t ∧ (s.cond ≠ 0b000#3 → t.cond ≠ 0b000#3)

/-- 20_memory.md R50 and log entry 1: every step keeps the memory's canonical form, so that equal
memories are equal data. -/
def Obligations.StepKeepsMemoryCanonical : Prop :=
  ∀ s t : State, s.mem.wf → step s = .next t → t.mem.wf

/-- 44_trap.md R159 and log entry 4: only a RUNNING block holds. -/
def Obligations.StepKeepsHoldOnlyWhileRunning : Prop :=
  ∀ s t : State, holdOnlyRunning s → step s = .next t → holdOnlyRunning t

/-- 20_memory.md R56: the backing words of 0xFE00, 0xFE01 and 0xFE03 to 0xFFFF cannot be observed: two
states that differ in them alone step to states that differ in them alone, or stop alike. -/
def Obligations.UnreadableWordsAreNeverObserved : Prop :=
  ∀ s t : State, SameToProgram s t → SameOutcome (step s) (step t)
end

