-- ==== Sys2Proof/Laws/Decode.lean ====
section
/-! SUPPORT. The fields of a word put together from its parts, for each format of 30_encoding.md R82,
and the decoder's answer for each opcode. -/

namespace Sys2Proof

/-! ### op_field12 -/

section
variable (op : BitVec 4) (f : BitVec 12)

theorem op_field12_op : (op ++ f : Word).extractLsb' 12 4 = op := by
  apply BitVec.eq_of_getLsbD_eq
  intro i hi
  simp only [BitVec.getLsbD_extractLsb', BitVec.getLsbD_append, hi]
  interval_cases i <;> simp

theorem op_field12_low : (op ++ f : Word).extractLsb' 0 12 = f := by
  apply BitVec.eq_of_getLsbD_eq
  intro i hi
  simp only [BitVec.getLsbD_extractLsb', BitVec.getLsbD_append, hi]
  interval_cases i <;> simp

end

/-! ### op_reg_off9 -/

section
variable (op : BitVec 4) (a : BitVec 3) (o : BitVec 9)

theorem op_reg_off9_op : (op ++ a ++ o : Word).extractLsb' 12 4 = op := by
  apply BitVec.eq_of_getLsbD_eq
  intro i hi
  simp only [BitVec.getLsbD_extractLsb', BitVec.getLsbD_append, hi]
  interval_cases i <;> simp

theorem op_reg_off9_hiReg : (op ++ a ++ o : Word).extractLsb' 9 3 = a := by
  apply BitVec.eq_of_getLsbD_eq
  intro i hi
  simp only [BitVec.getLsbD_extractLsb', BitVec.getLsbD_append, hi]
  interval_cases i <;> simp

theorem op_reg_off9_low : (op ++ a ++ o : Word).extractLsb' 0 9 = o := by
  apply BitVec.eq_of_getLsbD_eq
  intro i hi
  simp only [BitVec.getLsbD_extractLsb', BitVec.getLsbD_append, hi]
  interval_cases i <;> simp

end

/-! ### op_reg_reg_off6 -/

section
variable (op : BitVec 4) (a : BitVec 3) (b : BitVec 3) (o : BitVec 6)

theorem op_reg_reg_off6_op : (op ++ a ++ b ++ o : Word).extractLsb' 12 4 = op := by
  apply BitVec.eq_of_getLsbD_eq
  intro i hi
  simp only [BitVec.getLsbD_extractLsb', BitVec.getLsbD_append, hi]
  interval_cases i <;> simp

theorem op_reg_reg_off6_hiReg : (op ++ a ++ b ++ o : Word).extractLsb' 9 3 = a := by
  apply BitVec.eq_of_getLsbD_eq
  intro i hi
  simp only [BitVec.getLsbD_extractLsb', BitVec.getLsbD_append, hi]
  interval_cases i <;> simp

theorem op_reg_reg_off6_midReg : (op ++ a ++ b ++ o : Word).extractLsb' 6 3 = b := by
  apply BitVec.eq_of_getLsbD_eq
  intro i hi
  simp only [BitVec.getLsbD_extractLsb', BitVec.getLsbD_append, hi]
  interval_cases i <;> simp

theorem op_reg_reg_off6_low : (op ++ a ++ b ++ o : Word).extractLsb' 0 6 = o := by
  apply BitVec.eq_of_getLsbD_eq
  intro i hi
  simp only [BitVec.getLsbD_extractLsb', BitVec.getLsbD_append, hi]
  interval_cases i <;> simp

end

/-! ### op_reg_reg_flag_imm -/

section
variable (op : BitVec 4) (a : BitVec 3) (b : BitVec 3) (g : BitVec 1) (o : BitVec 5)

theorem op_reg_reg_flag_imm_op : (op ++ a ++ b ++ g ++ o : Word).extractLsb' 12 4 = op := by
  apply BitVec.eq_of_getLsbD_eq
  intro i hi
  simp only [BitVec.getLsbD_extractLsb', BitVec.getLsbD_append, hi]
  interval_cases i <;> simp

theorem op_reg_reg_flag_imm_hiReg : (op ++ a ++ b ++ g ++ o : Word).extractLsb' 9 3 = a := by
  apply BitVec.eq_of_getLsbD_eq
  intro i hi
  simp only [BitVec.getLsbD_extractLsb', BitVec.getLsbD_append, hi]
  interval_cases i <;> simp

theorem op_reg_reg_flag_imm_midReg : (op ++ a ++ b ++ g ++ o : Word).extractLsb' 6 3 = b := by
  apply BitVec.eq_of_getLsbD_eq
  intro i hi
  simp only [BitVec.getLsbD_extractLsb', BitVec.getLsbD_append, hi]
  interval_cases i <;> simp

theorem op_reg_reg_flag_imm_flag : (op ++ a ++ b ++ g ++ o : Word).getLsbD 5 = g.getLsbD 0 := by
  simp only [BitVec.getLsbD_append]
  simp

theorem op_reg_reg_flag_imm_flag_getElem : (op ++ a ++ b ++ g ++ o : Word)[5] = g[0] :=
  op_reg_reg_flag_imm_flag op a b g o

theorem op_reg_reg_flag_imm_low : (op ++ a ++ b ++ g ++ o : Word).extractLsb' 0 5 = o := by
  apply BitVec.eq_of_getLsbD_eq
  intro i hi
  simp only [BitVec.getLsbD_extractLsb', BitVec.getLsbD_append, hi]
  interval_cases i <;> simp

end

/-! ### op_reg_reg_flag_dc_reg -/

section
variable (op : BitVec 4) (a : BitVec 3) (b : BitVec 3) (g : BitVec 1) (d : BitVec 2) (c : BitVec 3)

theorem op_reg_reg_flag_dc_reg_op : (op ++ a ++ b ++ g ++ d ++ c : Word).extractLsb' 12 4 = op := by
  apply BitVec.eq_of_getLsbD_eq
  intro i hi
  simp only [BitVec.getLsbD_extractLsb', BitVec.getLsbD_append, hi]
  interval_cases i <;> simp

theorem op_reg_reg_flag_dc_reg_hiReg : (op ++ a ++ b ++ g ++ d ++ c : Word).extractLsb' 9 3 = a := by
  apply BitVec.eq_of_getLsbD_eq
  intro i hi
  simp only [BitVec.getLsbD_extractLsb', BitVec.getLsbD_append, hi]
  interval_cases i <;> simp

theorem op_reg_reg_flag_dc_reg_midReg : (op ++ a ++ b ++ g ++ d ++ c : Word).extractLsb' 6 3 = b := by
  apply BitVec.eq_of_getLsbD_eq
  intro i hi
  simp only [BitVec.getLsbD_extractLsb', BitVec.getLsbD_append, hi]
  interval_cases i <;> simp

theorem op_reg_reg_flag_dc_reg_flag : (op ++ a ++ b ++ g ++ d ++ c : Word).getLsbD 5 = g.getLsbD 0 := by
  simp only [BitVec.getLsbD_append]
  simp

theorem op_reg_reg_flag_dc_reg_flag_getElem : (op ++ a ++ b ++ g ++ d ++ c : Word)[5] = g[0] :=
  op_reg_reg_flag_dc_reg_flag op a b g d c

theorem op_reg_reg_flag_dc_reg_loReg : (op ++ a ++ b ++ g ++ d ++ c : Word).extractLsb' 0 3 = c := by
  apply BitVec.eq_of_getLsbD_eq
  intro i hi
  simp only [BitVec.getLsbD_extractLsb', BitVec.getLsbD_append, hi]
  interval_cases i <;> simp

end

/-! ### op_flag_off11 -/

section
variable (op : BitVec 4) (g : BitVec 1) (o : BitVec 11)

theorem op_flag_off11_op : (op ++ g ++ o : Word).extractLsb' 12 4 = op := by
  apply BitVec.eq_of_getLsbD_eq
  intro i hi
  simp only [BitVec.getLsbD_extractLsb', BitVec.getLsbD_append, hi]
  interval_cases i <;> simp

theorem op_flag_off11_flag : (op ++ g ++ o : Word).getLsbD 11 = g.getLsbD 0 := by
  simp only [BitVec.getLsbD_append]
  simp

theorem op_flag_off11_flag_getElem : (op ++ g ++ o : Word)[11] = g[0] :=
  op_flag_off11_flag op g o

theorem op_flag_off11_low : (op ++ g ++ o : Word).extractLsb' 0 11 = o := by
  apply BitVec.eq_of_getLsbD_eq
  intro i hi
  simp only [BitVec.getLsbD_extractLsb', BitVec.getLsbD_append, hi]
  interval_cases i <;> simp

end

/-! ### op_flag_dc_reg_dc -/

section
variable (op : BitVec 4) (g : BitVec 1) (d : BitVec 2) (b : BitVec 3) (e : BitVec 6)

theorem op_flag_dc_reg_dc_op : (op ++ g ++ d ++ b ++ e : Word).extractLsb' 12 4 = op := by
  apply BitVec.eq_of_getLsbD_eq
  intro i hi
  simp only [BitVec.getLsbD_extractLsb', BitVec.getLsbD_append, hi]
  interval_cases i <;> simp

theorem op_flag_dc_reg_dc_flag : (op ++ g ++ d ++ b ++ e : Word).getLsbD 11 = g.getLsbD 0 := by
  simp only [BitVec.getLsbD_append]
  simp

theorem op_flag_dc_reg_dc_flag_getElem : (op ++ g ++ d ++ b ++ e : Word)[11] = g[0] :=
  op_flag_dc_reg_dc_flag op g d b e

theorem op_flag_dc_reg_dc_midReg : (op ++ g ++ d ++ b ++ e : Word).extractLsb' 6 3 = b := by
  apply BitVec.eq_of_getLsbD_eq
  intro i hi
  simp only [BitVec.getLsbD_extractLsb', BitVec.getLsbD_append, hi]
  interval_cases i <;> simp

end

/-! ### op_dc_vect -/

section
variable (op : BitVec 4) (d : BitVec 4) (v : BitVec 8)

theorem op_dc_vect_op : (op ++ d ++ v : Word).extractLsb' 12 4 = op := by
  apply BitVec.eq_of_getLsbD_eq
  intro i hi
  simp only [BitVec.getLsbD_extractLsb', BitVec.getLsbD_append, hi]
  interval_cases i <;> simp

theorem op_dc_vect_low : (op ++ d ++ v : Word).extractLsb' 0 8 = v := by
  apply BitVec.eq_of_getLsbD_eq
  intro i hi
  simp only [BitVec.getLsbD_extractLsb', BitVec.getLsbD_append, hi]
  interval_cases i <;> simp

end

/-! ### Register fields -/

theorem toFin_regBits (r : Reg) : (regBits r).toFin = r := by revert r; decide

theorem regBits_toFin (b : BitVec 3) : regBits b.toFin = b := by revert b; decide

theorem regField_of_bits {w : Word} {lo : Nat} {r : Reg} (h : w.extractLsb' lo 3 = regBits r) :
    regField w lo = r := by rw [regField, h, toFin_regBits]

theorem regBits_regField (w : Word) (lo : Nat) : regBits (regField w lo) = w.extractLsb' lo 3 := by
  rw [regField, regBits_toFin]

end Sys2Proof
end

