-- ==== Sys2Proof/Laws/State.lean ====
section
/-! SUPPORT. One lemma for each field and each update of the state, and register reads after writes. -/

namespace Sys2Proof.Machine

section
variable (b : List Byte) (l : List (List Byte)) (k n : Nat) (a : Schedule)

@[simp] theorem Schedule.next_nil : (Schedule.mk [] k).next = Config.hostKeys k := rfl
@[simp] theorem Schedule.next_cons : (Schedule.mk (b :: l) k).next = b := rfl
@[simp] theorem Schedule.advance_nil : (Schedule.mk [] k).advance = ⟨[], k + 1⟩ := rfl
@[simp] theorem Schedule.advance_cons : (Schedule.mk (b :: l) k).advance = ⟨l, k⟩ := rfl
@[simp] theorem Schedule.batches_zero : a.batches 0 = [] := rfl
@[simp] theorem Schedule.batches_succ : a.batches (n + 1) = a.next ++ a.advance.batches n := rfl
@[simp] theorem Schedule.after_zero : a.after 0 = a := rfl
@[simp] theorem Schedule.after_succ : a.after (n + 1) = a.advance.after n := rfl

end

section
variable (s : State) (i : Reg) (v : Word)

@[simp] theorem State.setReg_x : (s.setReg i v).x = s.x.set i v := rfl
@[simp] theorem State.setReg_pc : (s.setReg i v).pc = s.pc := rfl
@[simp] theorem State.setReg_cond : (s.setReg i v).cond = s.cond := rfl
@[simp] theorem State.setReg_mem : (s.setReg i v).mem = s.mem := rfl
@[simp] theorem State.setReg_run : (s.setReg i v).run = s.run := rfl
@[simp] theorem State.setReg_out : (s.setReg i v).out = s.out := rfl
@[simp] theorem State.setReg_hold : (s.setReg i v).hold = s.hold := rfl
@[simp] theorem State.setReg_keys : (s.setReg i v).keys = s.keys := rfl
@[simp] theorem State.setReg_arrivals : (s.setReg i v).arrivals = s.arrivals := rfl

end

section
variable (s : State) (v : Word)

@[simp] theorem State.setPc_x : (s.setPc v).x = s.x := rfl
@[simp] theorem State.setPc_pc : (s.setPc v).pc = v := rfl
@[simp] theorem State.setPc_cond : (s.setPc v).cond = s.cond := rfl
@[simp] theorem State.setPc_mem : (s.setPc v).mem = s.mem := rfl
@[simp] theorem State.setPc_run : (s.setPc v).run = s.run := rfl
@[simp] theorem State.setPc_out : (s.setPc v).out = s.out := rfl
@[simp] theorem State.setPc_hold : (s.setPc v).hold = s.hold := rfl
@[simp] theorem State.setPc_keys : (s.setPc v).keys = s.keys := rfl
@[simp] theorem State.setPc_arrivals : (s.setPc v).arrivals = s.arrivals := rfl

end

section
variable (s : State) (r : RunState)

@[simp] theorem State.setRun_x : (s.setRun r).x = s.x := rfl
@[simp] theorem State.setRun_pc : (s.setRun r).pc = s.pc := rfl
@[simp] theorem State.setRun_cond : (s.setRun r).cond = s.cond := rfl
@[simp] theorem State.setRun_mem : (s.setRun r).mem = s.mem := rfl
@[simp] theorem State.setRun_run : (s.setRun r).run = r := rfl
@[simp] theorem State.setRun_out : (s.setRun r).out = s.out := rfl
@[simp] theorem State.setRun_hold : (s.setRun r).hold = s.hold := rfl
@[simp] theorem State.setRun_keys : (s.setRun r).keys = s.keys := rfl
@[simp] theorem State.setRun_arrivals : (s.setRun r).arrivals = s.arrivals := rfl

end

section
variable (s : State) (c : Cause)

@[simp] theorem State.raise_x : (s.raise c).x = s.x := rfl
@[simp] theorem State.raise_pc : (s.raise c).pc = s.pc := rfl
@[simp] theorem State.raise_cond : (s.raise c).cond = s.cond := rfl
@[simp] theorem State.raise_mem : (s.raise c).mem = s.mem := rfl
@[simp] theorem State.raise_run : (s.raise c).run = .faulted c := rfl
@[simp] theorem State.raise_out : (s.raise c).out = s.out := rfl
@[simp] theorem State.raise_hold : (s.raise c).hold = s.hold := rfl
@[simp] theorem State.raise_keys : (s.raise c).keys = s.keys := rfl
@[simp] theorem State.raise_arrivals : (s.raise c).arrivals = s.arrivals := rfl

end

section
variable (s : State) (v : Word)

@[simp] theorem State.setcc_x : (s.setcc v).x = s.x := rfl
@[simp] theorem State.setcc_pc : (s.setcc v).pc = s.pc := rfl
@[simp] theorem State.setcc_cond : (s.setcc v).cond = condOf v := rfl
@[simp] theorem State.setcc_mem : (s.setcc v).mem = s.mem := rfl
@[simp] theorem State.setcc_run : (s.setcc v).run = s.run := rfl
@[simp] theorem State.setcc_out : (s.setcc v).out = s.out := rfl
@[simp] theorem State.setcc_hold : (s.setcc v).hold = s.hold := rfl
@[simp] theorem State.setcc_keys : (s.setcc v).keys = s.keys := rfl
@[simp] theorem State.setcc_arrivals : (s.setcc v).arrivals = s.arrivals := rfl

end

section
variable (s : State) (p : Bool) (v : Word)

@[simp] theorem State.setccIf_x : (s.setccIf p v).x = s.x := rfl
@[simp] theorem State.setccIf_pc : (s.setccIf p v).pc = s.pc := rfl
@[simp] theorem State.setccIf_cond : (s.setccIf p v).cond = if p then condOf v else s.cond := rfl
@[simp] theorem State.setccIf_mem : (s.setccIf p v).mem = s.mem := rfl
@[simp] theorem State.setccIf_run : (s.setccIf p v).run = s.run := rfl
@[simp] theorem State.setccIf_out : (s.setccIf p v).out = s.out := rfl
@[simp] theorem State.setccIf_hold : (s.setccIf p v).hold = s.hold := rfl
@[simp] theorem State.setccIf_keys : (s.setccIf p v).keys = s.keys := rfl
@[simp] theorem State.setccIf_arrivals : (s.setccIf p v).arrivals = s.arrivals := rfl

theorem State.setccIf_true : s.setccIf true v = s.setcc v := rfl
theorem State.setccIf_false : s.setccIf false v = s := rfl

end

section
variable (s : State) (i : Reg) (v : Word)

@[simp] theorem State.setWithCond_x : (s.setWithCond i v).x = s.x.set i v := rfl
@[simp] theorem State.setWithCond_pc : (s.setWithCond i v).pc = s.pc := rfl
@[simp] theorem State.setWithCond_cond : (s.setWithCond i v).cond = condOf v := rfl
@[simp] theorem State.setWithCond_mem : (s.setWithCond i v).mem = s.mem := rfl
@[simp] theorem State.setWithCond_run : (s.setWithCond i v).run = s.run := rfl
@[simp] theorem State.setWithCond_out : (s.setWithCond i v).out = s.out := rfl
@[simp] theorem State.setWithCond_hold : (s.setWithCond i v).hold = s.hold := rfl
@[simp] theorem State.setWithCond_keys : (s.setWithCond i v).keys = s.keys := rfl
@[simp] theorem State.setWithCond_arrivals : (s.setWithCond i v).arrivals = s.arrivals := rfl

end

section
variable (s : State) 

@[simp] theorem State.link_x : s.link.x = s.x.set 7 s.pc := rfl
@[simp] theorem State.link_pc : s.link.pc = s.pc := rfl
@[simp] theorem State.link_cond : s.link.cond = s.cond := rfl
@[simp] theorem State.link_mem : s.link.mem = s.mem := rfl
@[simp] theorem State.link_run : s.link.run = s.run := rfl
@[simp] theorem State.link_out : s.link.out = s.out := rfl
@[simp] theorem State.link_hold : s.link.hold = s.hold := rfl
@[simp] theorem State.link_keys : s.link.keys = s.keys := rfl
@[simp] theorem State.link_arrivals : s.link.arrivals = s.arrivals := rfl

end

section
variable (s : State) (c : Byte)

@[simp] theorem State.emit_x : (s.emit c).x = s.x := rfl
@[simp] theorem State.emit_pc : (s.emit c).pc = s.pc := rfl
@[simp] theorem State.emit_cond : (s.emit c).cond = s.cond := rfl
@[simp] theorem State.emit_mem : (s.emit c).mem = s.mem := rfl
@[simp] theorem State.emit_run : (s.emit c).run = s.run := rfl
@[simp] theorem State.emit_out : (s.emit c).out = s.out ++ [c] := rfl
@[simp] theorem State.emit_hold : (s.emit c).hold = s.hold := rfl
@[simp] theorem State.emit_keys : (s.emit c).keys = s.keys := rfl
@[simp] theorem State.emit_arrivals : (s.emit c).arrivals = s.arrivals := rfl

end

section
variable (s : State) (cs : List Byte)

@[simp] theorem State.emitAll_x : (s.emitAll cs).x = s.x := rfl
@[simp] theorem State.emitAll_pc : (s.emitAll cs).pc = s.pc := rfl
@[simp] theorem State.emitAll_cond : (s.emitAll cs).cond = s.cond := rfl
@[simp] theorem State.emitAll_mem : (s.emitAll cs).mem = s.mem := rfl
@[simp] theorem State.emitAll_run : (s.emitAll cs).run = s.run := rfl
@[simp] theorem State.emitAll_out : (s.emitAll cs).out = s.out ++ cs := rfl
@[simp] theorem State.emitAll_hold : (s.emitAll cs).hold = s.hold := rfl
@[simp] theorem State.emitAll_keys : (s.emitAll cs).keys = s.keys := rfl
@[simp] theorem State.emitAll_arrivals : (s.emitAll cs).arrivals = s.arrivals := rfl

end

section
variable (s : State) (a v : Word)

@[simp] theorem State.setWord_x : (s.setWord a v).x = s.x := rfl
@[simp] theorem State.setWord_pc : (s.setWord a v).pc = s.pc := rfl
@[simp] theorem State.setWord_cond : (s.setWord a v).cond = s.cond := rfl
@[simp] theorem State.setWord_run : (s.setWord a v).run = s.run := rfl
@[simp] theorem State.setWord_out : (s.setWord a v).out = s.out := rfl
@[simp] theorem State.setWord_hold : (s.setWord a v).hold = s.hold := rfl
@[simp] theorem State.setWord_keys : (s.setWord a v).keys = s.keys := rfl
@[simp] theorem State.setWord_arrivals : (s.setWord a v).arrivals = s.arrivals := rfl

end

/-! ## Register reads after updates -/

@[simp] theorem State.reg_setReg_same (s : State) (i : Reg) (v : Word) : (s.setReg i v).reg i = v := by
  simp [State.reg]

theorem State.reg_setReg_ne (s : State) (v : Word) {i j : Reg} (h : j ≠ i) :
    (s.setReg i v).reg j = s.reg j := by
  have : i.val ≠ j.val := fun e => h (Fin.ext e.symm)
  simp [State.reg, Vector.getElem_set_ne, this]

theorem State.reg_of_x_eq {s t : State} (h : t.x = s.x) (r : Reg) : t.reg r = s.reg r := by
  simp [State.reg, h]

@[simp] theorem State.reg_setWithCond_same (s : State) (i : Reg) (v : Word) :
    (s.setWithCond i v).reg i = v := State.reg_setReg_same s i v

theorem State.reg_setWithCond_ne (s : State) (v : Word) {i j : Reg} (h : j ≠ i) :
    (s.setWithCond i v).reg j = s.reg j := State.reg_setReg_ne s v h

@[simp] theorem State.reg_link_seven (s : State) : s.link.reg 7 = s.pc := State.reg_setReg_same s 7 s.pc

theorem State.reg_link_ne (s : State) {j : Reg} (h : j ≠ 7) : s.link.reg j = s.reg j :=
  State.reg_setReg_ne s s.pc h

@[simp] theorem State.reg_link_zero (s : State) : s.link.reg 0 = s.reg 0 :=
  State.reg_link_ne s (by decide)

@[simp] theorem State.reg_setPc (s : State) (v : Word) (r : Reg) : (s.setPc v).reg r = s.reg r := rfl
@[simp] theorem State.reg_setccIf (s : State) (p : Bool) (v : Word) (r : Reg) :
    (s.setccIf p v).reg r = s.reg r := rfl
@[simp] theorem State.reg_setcc (s : State) (v : Word) (r : Reg) : (s.setcc v).reg r = s.reg r := rfl
@[simp] theorem State.reg_setRun (s : State) (q : RunState) (r : Reg) : (s.setRun q).reg r = s.reg r := rfl
@[simp] theorem State.reg_raise (s : State) (c : Cause) (r : Reg) : (s.raise c).reg r = s.reg r := rfl
@[simp] theorem State.reg_emit (s : State) (c : Byte) (r : Reg) : (s.emit c).reg r = s.reg r := rfl
@[simp] theorem State.reg_emitAll (s : State) (cs : List Byte) (r : Reg) : (s.emitAll cs).reg r = s.reg r := rfl
@[simp] theorem State.reg_setWord (s : State) (a v : Word) (r : Reg) : (s.setWord a v).reg r = s.reg r := rfl

/-! ## A word of memory after an update that leaves memory alone -/

theorem State.word_of_mem_eq {s t : State} (h : t.mem = s.mem) (a : Word) : t.word a = s.word a := by
  simp [State.word, h]

@[simp] theorem State.word_setReg (s : State) (i : Reg) (v a : Word) : (s.setReg i v).word a = s.word a := rfl
@[simp] theorem State.word_setPc (s : State) (v a : Word) : (s.setPc v).word a = s.word a := rfl
@[simp] theorem State.word_setcc (s : State) (v a : Word) : (s.setcc v).word a = s.word a := rfl
@[simp] theorem State.word_setccIf (s : State) (p : Bool) (v a : Word) :
    (s.setccIf p v).word a = s.word a := rfl
@[simp] theorem State.word_setRun (s : State) (q : RunState) (a : Word) : (s.setRun q).word a = s.word a := rfl
@[simp] theorem State.word_raise (s : State) (c : Cause) (a : Word) : (s.raise c).word a = s.word a := rfl
@[simp] theorem State.word_setWithCond (s : State) (i : Reg) (v a : Word) :
    (s.setWithCond i v).word a = s.word a := rfl
@[simp] theorem State.word_link (s : State) (a : Word) : s.link.word a = s.word a := rfl
@[simp] theorem State.word_emit (s : State) (c : Byte) (a : Word) : (s.emit c).word a = s.word a := rfl
@[simp] theorem State.word_emitAll (s : State) (cs : List Byte) (a : Word) : (s.emitAll cs).word a = s.word a := rfl

end Sys2Proof.Machine
end

