-- ==== Sys2Proof/Laws/Memory.lean ====
section
/-! SUPPORT. Memory: a read after a write, and the canonical form every write keeps. -/

namespace Sys2Proof.Machine

/-! ## Cells -/

theorem cellAt_filter_ne (m : Memory) {k j : Nat} (h : j ≠ k) :
    cellAt (m.filter fun c => c.1 != k) j = cellAt m j := by
  induction m with
  | nil => rfl
  | cons c m ih =>
    by_cases hc : c.1 = k
    · rw [List.filter_cons_of_neg (by simp [hc]), ih, cellAt, if_neg (by omega)]
    · rw [List.filter_cons_of_pos (by simp [hc]), cellAt, cellAt, ih]

theorem cellAt_filter_same (m : Memory) (k : Nat) : cellAt (m.filter fun c => c.1 != k) k = 0#8 := by
  induction m with
  | nil => rfl
  | cons c m ih =>
    by_cases hc : c.1 = k
    · rw [List.filter_cons_of_neg (by simp [hc]), ih]
    · rw [List.filter_cons_of_pos (by simp [hc]), cellAt, if_neg hc, ih]

theorem cellAt_insertCell (m : Memory) (k j : Nat) (b : Byte) (h : ∀ c ∈ m, c.1 ≠ k) :
    cellAt (insertCell m k b) j = if j = k then b else cellAt m j := by
  induction m with
  | nil => simp [insertCell, cellAt, eq_comm]
  | cons c m ih =>
    have hc := h c (by simp)
    have ih := ih fun d hd => h d (List.mem_cons_of_mem c hd)
    rw [insertCell]
    split
    · simp [cellAt, eq_comm]
    · rw [cellAt, cellAt, ih]
      split
      · rw [if_neg (by omega)]
      · rfl

theorem ne_of_mem_filter {m : Memory} {k : Nat} {c : Host.Cell}
    (h : c ∈ m.filter fun c => c.1 != k) : c.1 ≠ k := by simpa using (List.mem_filter.mp h).2

/-- A cell other than the one written reads as before. -/
theorem cellAt_putCell_ne (m : Memory) (b : Byte) {k j : Nat} (h : j ≠ k) :
    cellAt (putCell m k b) j = cellAt m j := by
  rw [putCell]
  split
  · exact cellAt_filter_ne m h
  · rw [cellAt_insertCell _ _ _ _ fun c hc => ne_of_mem_filter hc, if_neg h, cellAt_filter_ne m h]

/-- The cell written holds the byte written. -/
theorem cellAt_putCell_same (m : Memory) (k : Nat) (b : Byte) : cellAt (putCell m k b) k = b := by
  rw [putCell]
  split
  · rename_i hb
    rw [cellAt_filter_same, hb]
  · rw [cellAt_insertCell _ _ _ _ fun c hc => ne_of_mem_filter hc, if_pos rfl]

theorem mem_insertCell {m : Memory} {k : Nat} {b : Byte} {c : Host.Cell} (h : c ∈ insertCell m k b) :
    c ∈ m ∨ c = (k, b) := by
  induction m with
  | nil => exact .inr (List.mem_singleton.mp h)
  | cons d m ih =>
    rw [insertCell] at h
    split at h
    · rcases List.mem_cons.mp h with rfl | h
      · exact .inr rfl
      · exact .inl h
    · rcases List.mem_cons.mp h with rfl | h
      · exact .inl (by simp)
      · exact (ih h).imp_left (List.mem_cons_of_mem d)

theorem pairwise_insertCell {m : Memory} (hm : m.Pairwise fun c d => c.1 < d.1) {k : Nat} (b : Byte)
    (h : ∀ c ∈ m, c.1 ≠ k) : (insertCell m k b).Pairwise fun c d => c.1 < d.1 := by
  induction m with
  | nil => simp [insertCell]
  | cons c m ih =>
    have hp := List.pairwise_cons.mp hm
    have hc := h c (by simp)
    rw [insertCell]
    split
    · refine List.pairwise_cons.mpr ⟨fun d hd => ?_, hm⟩
      rcases List.mem_cons.mp hd with rfl | hd
      · assumption
      · have := hp.1 d hd
        simp only
        omega
    · refine List.pairwise_cons.mpr ⟨fun d hd => ?_, ih hp.2 fun d hd => h d (List.mem_cons_of_mem c hd)⟩
      rcases mem_insertCell hd with hd | rfl
      · exact hp.1 d hd
      · simp only
        omega

/-- Writing a cell keeps the canonical form. -/
theorem wf_putCell {m : Memory} (hm : m.wf) {k : Nat} (hk : k < 131072) (b : Byte) :
    (putCell m k b).wf := by
  have hf : (m.filter fun c => c.1 != k).Pairwise fun c d => c.1 < d.1 := hm.1.filter _
  have hr : ∀ c ∈ m.filter fun c => c.1 != k, c.1 < 131072 ∧ c.2 ≠ 0#8 :=
    fun c hc => hm.2 c (List.mem_filter.mp hc).1
  rw [putCell]
  split
  · exact ⟨hf, hr⟩
  · refine ⟨pairwise_insertCell hf b fun c hc => ne_of_mem_filter hc, fun c hc => ?_⟩
    rcases mem_insertCell hc with hc | rfl
    · exact hr c hc
    · exact ⟨hk, by assumption⟩

/-! ## Words -/

theorem append_bytes (v : Word) : (v.extractLsb' 8 8 ++ v.extractLsb' 0 8 : Word) = v := by
  apply BitVec.eq_of_getLsbD_eq
  intro i hi
  rw [BitVec.getLsbD_append]
  by_cases h : i < 8
  · simp [h]
  · have h1 : i - 8 < 8 := by omega
    have h2 : 8 + (i - 8) = i := by omega
    simp [h, h1, h2]

/-- The word written is the word read. -/
theorem State.word_setWord_same (s : State) (a v : Word) : (s.setWord a v).word a = v := by
  simp only [State.word, State.setWord]
  rw [cellAt_putCell_same, cellAt_putCell_ne _ _ (by omega), cellAt_putCell_same, append_bytes]

/-- Every other word is left alone (R50: two addresses name two disjoint words). -/
theorem State.word_setWord_ne (s : State) (v : Word) {a b : Word} (h : b ≠ a) :
    (s.setWord a v).word b = s.word b := by
  have h' : b.toNat ≠ a.toNat := fun e => h (BitVec.eq_of_toNat_eq e)
  simp only [State.word, State.setWord]
  rw [cellAt_putCell_ne _ _ (by omega), cellAt_putCell_ne _ _ (by omega),
    cellAt_putCell_ne _ _ (by omega), cellAt_putCell_ne _ _ (by omega)]

/-- Writing a word keeps the canonical form. -/
theorem State.wf_setWord {s : State} (hm : s.mem.wf) (a v : Word) : (s.setWord a v).mem.wf := by
  have ha := a.isLt
  exact wf_putCell (wf_putCell hm (by omega) _) (by omega) _

theorem wf_reset : State.reset.mem.wf := by decide

end Sys2Proof.Machine
end

