-- ==== Sys2Proof/Laws/Ops.lean ====
section
/-! SUPPORT. What each shared operation can do, said once: the keyboard channel, the read decoder,
the wait for a key, the walks of PUTS and PUTSP, the loader's stores. -/

namespace Sys2Proof.Machine

/-! ## The keyboard channel -/

theorem foldl_hostKey (bs : List Byte) (s : State) :
    bs.foldl (fun t b => t.hostKey b) s = { s with keys := s.keys ++ bs } := by
  induction bs generalizing s with
  | nil => simp
  | cons b bs ih => rw [List.foldl_cons, ih]; simp [State.hostKey]

/-- The arrivals before a transaction change the channel and its schedule alone. -/
theorem land_eq (s : State) :
    s.land = { s with keys := pendingNow s, arrivals := s.arrivals.advance } := by
  simp [State.land, pendingNow, foldl_hostKey]

theorem Schedule.after_add (m n : Nat) (a : Schedule) : a.after (n + m) = (a.after n).after m := by
  induction n generalizing a with
  | zero => simp [Schedule.after]
  | succ n ih => rw [Nat.succ_add]; exact ih a.advance

theorem Schedule.batches_add (m n : Nat) (a : Schedule) :
    a.batches (n + m) = a.batches n ++ (a.after n).batches m := by
  induction n generalizing a with
  | zero => simp [Schedule.batches, Schedule.after]
  | succ n ih => rw [Nat.succ_add]; simp [Schedule.batches, Schedule.after, ih]

/-- Where the channel and its schedule are left alone, no key is taken. -/
theorem KeysTaken.of_kept {s t : State} (h : KeysKept s t) : KeysTaken [] 0 s t :=
  ⟨h.2, by simp [h.1, Schedule.batches]⟩

/-- What was taken in two stretches was taken in both together. -/
theorem KeysTaken.trans {ks ls : List Byte} {n m : Nat} {s t u : State} (h : KeysTaken ks n s t)
    (h' : KeysTaken ls m t u) : KeysTaken (ks ++ ls) (n + m) s u := by
  refine ⟨by rw [h'.1, h.1, Schedule.after_add], ?_⟩
  rw [List.append_assoc, h'.2, ← List.append_assoc, h.2, h.1, List.append_assoc, Schedule.batches_add]

theorem KeysTaken.land (s : State) : KeysTaken [] 1 s s.land :=
  ⟨by rw [land_eq]; rfl, by simp [land_eq, pendingNow, Schedule.batches]⟩

theorem kbdGet_of_pending {s : State} {b : Byte} {rest : List Byte} (h : pendingNow s = b :: rest) :
    s.kbdGet = (some b, { s.land with keys := rest }) := by
  simp [State.kbdGet, land_eq, h]

theorem kbdGet_of_none {s : State} (h : pendingNow s = []) : s.kbdGet = (none, s.land) := by
  simp [State.kbdGet, land_eq, h]

/-! ## The read decoder -/

/-- What a read that does not fault answers, and the state it leaves. -/
theorem memRead_cases {a v : Word} {s t : State} (h : memRead a s = some (v, t)) :
    (a.toNat < 0xFE00 ∧ v = s.word a ∧ t = s) ∨
    (a = 0xFE00 ∧ v = (if pendingNow s = [] then 0x0000 else 0x8000) ∧ t = s.land) ∨
    (a = 0xFE02 ∧ ∃ b rest, pendingNow s = b :: rest ∧ v = b.setWidth 16 ∧
      t = ({ s.land with keys := rest } : State).setWord 0xFE02 (b.setWidth 16)) ∨
    (a = 0xFE02 ∧ pendingNow s = [] ∧ v = s.word 0xFE02 ∧ t = s.land) := by
  rw [memRead] at h
  split at h
  · cases h
    exact .inl ⟨by assumption, rfl, rfl⟩
  · split at h
    · right; left
      cases hp : pendingNow s <;>
        simp_all [kbsrRead, State.kbdCheck, land_eq]
    · split at h
      · right; right
        cases hp : pendingNow s with
        | nil =>
          right
          simp only [kbdrRead, kbdGet_of_none hp, Option.some.injEq, Prod.mk.injEq] at h
          refine ⟨by assumption, rfl, ?_, h.2.symm⟩
          rw [← h.1, land_eq]; rfl
        | cons b rest =>
          left
          simp only [kbdrRead, kbdGet_of_pending hp, Option.some.injEq, Prod.mk.injEq] at h
          exact ⟨by assumption, b, rest, rfl, h.1.symm, h.2.symm⟩
      · cases h

/-- A read faults exactly at 0xFE01 and from 0xFE03 up. -/
theorem memRead_eq_none {a : Word} {s : State} :
    memRead a s = none ↔ 0xFE00 ≤ a.toNat ∧ a ≠ 0xFE00 ∧ a ≠ 0xFE02 := by
  rw [memRead]
  split
  · simp; omega
  · split
    · simp_all
    · split <;> simp_all

/-- A read changes nothing but the keyboard channel, its schedule and the KBDR cache. -/
theorem memRead_frame {a v : Word} {s t : State} (h : memRead a s = some (v, t)) :
    t = { s with mem := t.mem, keys := t.keys, arrivals := t.arrivals } := by
  rcases memRead_cases h with ⟨-, -, rfl⟩ | ⟨-, -, rfl⟩ | ⟨-, b, rest, -, -, rfl⟩ | ⟨-, -, -, rfl⟩ <;>
    simp [land_eq, State.setWord]

theorem memRead_reg {a v : Word} {s t : State} (h : memRead a s = some (v, t)) (r : Reg) :
    t.reg r = s.reg r := by
  rw [memRead_frame h]; rfl

theorem memRead_memKeptBut {a v : Word} {s t : State} (h : memRead a s = some (v, t)) :
    MemKeptBut 0xFE02 s t := by
  intro b hb
  rcases memRead_cases h with ⟨-, -, rfl⟩ | ⟨-, -, rfl⟩ | ⟨-, c, rest, -, -, rfl⟩ | ⟨-, -, -, rfl⟩
  · rfl
  · rw [land_eq]; rfl
  · rw [State.word_setWord_ne _ _ hb, land_eq]; rfl
  · rw [land_eq]; rfl

theorem memRead_memKept {a v : Word} {s t : State} (h : memRead a s = some (v, t)) (ha : a ≠ 0xFE02) :
    MemKept s t := by
  intro b
  rcases memRead_cases h with ⟨-, -, rfl⟩ | ⟨-, -, rfl⟩ | ⟨e, -⟩ | ⟨e, -⟩
  · rfl
  · rw [land_eq]; rfl
  · exact absurd e ha
  · exact absurd e ha

theorem memRead_wf {a v : Word} {s t : State} (h : memRead a s = some (v, t)) (hs : s.mem.wf) :
    t.mem.wf := by
  rcases memRead_cases h with ⟨-, -, rfl⟩ | ⟨-, -, rfl⟩ | ⟨-, b, rest, -, -, rfl⟩ | ⟨-, -, -, rfl⟩
  · exact hs
  · rw [land_eq]; exact hs
  · exact State.wf_setWord (s := { s.land with keys := rest }) (by rw [land_eq]; exact hs) _ _
  · rw [land_eq]; exact hs

/-- A read lets at most one batch arrive and takes keys from the front alone. -/
theorem memRead_keysTaken {a v : Word} {s t : State} (h : memRead a s = some (v, t)) :
    ∃ ks n, KeysTaken ks n s t := by
  rcases memRead_cases h with ⟨-, -, rfl⟩ | ⟨-, -, rfl⟩ | ⟨-, b, rest, hp, -, rfl⟩ | ⟨-, -, -, rfl⟩
  · exact ⟨[], 0, .of_kept ⟨rfl, rfl⟩⟩
  · exact ⟨[], 1, .land s⟩
  · refine ⟨[b], 1, by rw [land_eq]; rfl, ?_⟩
    simpa [Schedule.batches, pendingNow, eq_comm] using hp
  · exact ⟨[], 1, .land s⟩

/-- `withRead` either reads and goes on, or raises the fatal error of the address. -/
theorem withRead_cases (a : Word) (s : State) (k : Word → State → State) :
    (∃ v t, memRead a s = some (v, t) ∧ withRead a s k = k v t) ∨
    (memRead a s = none ∧ withRead a s k = s.raise (.unimplementedMemoryMap a)) := by
  cases h : memRead a s with
  | none => exact .inr ⟨rfl, by simp [withRead, h]⟩
  | some p => exact .inl ⟨p.1, p.2, rfl, by simp [withRead, h]⟩

/-- What a predicate needs to come through a read: the read and the fatal error keep it, and so does
the continuation. -/
theorem withRead_keeps {P : State → Prop} {a : Word} {s : State} {k : Word → State → State}
    (hs : P s) (hread : ∀ a v s t, P s → memRead a s = some (v, t) → P t)
    (hraise : ∀ a s, P s → P (s.raise (.unimplementedMemoryMap a)))
    (hk : ∀ v t, memRead a s = some (v, t) → P t → P (k v t)) : P (withRead a s k) := by
  rcases withRead_cases a s k with ⟨v, t, h, e⟩ | ⟨-, e⟩ <;> rw [e]
  · exact hk v t h (hread a v s t hs h)
  · exact hraise a s hs

/-! ## The wait for a key -/

/-- With no key pending, one poll changes the channel and sets the hold. -/
theorem awaitKey_of_none {h : Hold} {s : State} (hp : pendingNow s = []) :
    awaitKey h s = { s with keys := [], arrivals := s.arrivals.advance, hold := some h } := by
  simp [awaitKey, State.kbdCheck, land_eq, hp]

/-- With a key pending, the service gets the oldest one. -/
theorem awaitKey_of_pending {h : Hold} {s : State} {b : Byte} {rest : List Byte}
    (hp : pendingNow s = b :: rest) :
    awaitKey h s = deliverKey h b
      { s with keys := rest ++ s.arrivals.advance.next, arrivals := s.arrivals.advance.advance } := by
  have h2 : pendingNow s.land = b :: (rest ++ s.arrivals.advance.next) := by
    rw [pendingNow, land_eq, hp]; rfl
  have h1 : s.kbdCheck.1 = true := by simp [State.kbdCheck, land_eq, hp]
  rw [awaitKey, if_pos h1]
  simp only [State.kbdCheck, kbdGet_of_pending h2]
  simp [land_eq]

/-- A service that gets a key consumes the oldest one and no other. -/
theorem awaitKey_keysTaken_of_pending {h : Hold} {s : State} {b : Byte} {rest : List Byte}
    (hp : pendingNow s = b :: rest) : KeysTaken [b] 2 s (awaitKey h s) := by
  have hp' : s.keys ++ s.arrivals.next = b :: rest := hp
  rw [awaitKey_of_pending hp]
  cases h <;> exact ⟨rfl, by simp [deliverKey, State.setccIf, State.setReg, State.emit,
    Schedule.batches, ← List.append_assoc, hp']⟩

/-- A poll that finds no key consumes none. -/
theorem awaitKey_keysTaken_of_none {h : Hold} {s : State} (hp : pendingNow s = []) :
    KeysTaken [] 1 s (awaitKey h s) := by
  have hp' : s.keys ++ s.arrivals.next = [] := hp
  rw [awaitKey_of_none hp]
  exact ⟨rfl, by simp [Schedule.batches, hp']⟩

/-! ## The walks of PUTS and PUTSP -/

/-- What a predicate needs to come through the walk of PUTS. -/
theorem putsWalk_keeps {P : State → Prop}
    (hread : ∀ a v s t, P s → memRead a s = some (v, t) → P t)
    (hraise : ∀ a s, P s → P (s.raise (.unimplementedMemoryMap a)))
    (hemit : ∀ c s, P s → P (s.emit c)) (n : Nat) :
    ∀ a s, P s → P (putsWalk n a s) := by
  induction n with
  | zero => exact fun _ _ h => h
  | succ n ih =>
    intro a s hs
    refine withRead_keeps hs hread hraise fun w t _ ht => ?_
    split
    · exact ht
    · exact ih _ _ (hemit _ _ ht)

/-- What a predicate needs to come through the walk of PUTSP. -/
theorem putspWalk_keeps {P : State → Prop}
    (hread : ∀ a v s t, P s → memRead a s = some (v, t) → P t)
    (hraise : ∀ a s, P s → P (s.raise (.unimplementedMemoryMap a)))
    (hemit : ∀ c s, P s → P (s.emit c)) (n : Nat) :
    ∀ a s, P s → P (putspWalk n a s) := by
  induction n with
  | zero => exact fun _ _ h => h
  | succ n ih =>
    intro a s hs
    refine withRead_keeps hs hread hraise fun w t _ ht => ?_
    split
    · exact ht
    · split
      · exact hemit _ _ ht
      · exact ih _ _ (hemit _ _ (hemit _ _ ht))

/-! ## The loader -/

/-- The loader's stores change memory alone. -/
theorem storeWords_frame (ws : List Word) :
    ∀ (a : Word) (s : State), s.storeWords a ws = { s with mem := (s.storeWords a ws).mem } := by
  induction ws with
  | nil => exact fun _ _ => rfl
  | cons w ws ih =>
    intro a s
    rw [State.storeWords]
    conv_lhs => rw [ih]
    rfl

/-- The loader's stores keep the canonical form. -/
theorem storeWords_wf (ws : List Word) :
    ∀ (a : Word) (s : State), s.mem.wf → (s.storeWords a ws).mem.wf := by
  induction ws with
  | nil => exact fun _ _ h => h
  | cons w ws ih => exact fun a s h => ih _ _ (State.wf_setWord h a w)

end Sys2Proof.Machine
end

