-- ==== Sys2Proof/Laws/PerInstr.lean ====
section
/-! SUPPORT. The family Opcode: the top four bits of an instruction's word are the number that
30_encoding.md R81 gives its opcode. One lemma for each constructor. -/

namespace Sys2Proof.Laws

/-- The opcode number of each instruction (R81; log entry 9). -/
def opcodeNumber : Instr → BitVec 4
  | .br _ _ => 0x0#4
  | .addReg _ _ _ => 0x1#4
  | .addImm _ _ _ => 0x1#4
  | .ld _ _ => 0x2#4
  | .st _ _ => 0x3#4
  | .jsr _ => 0x4#4
  | .jsrr _ => 0x4#4
  | .andReg _ _ _ => 0x5#4
  | .andImm _ _ _ => 0x5#4
  | .ldr _ _ _ => 0x6#4
  | .str _ _ _ => 0x7#4
  | .rti _ => 0x8#4
  | .not _ _ => 0x9#4
  | .ldi _ _ => 0xA#4
  | .sti _ _ => 0xB#4
  | .jmp _ => 0xC#4
  | .res _ => 0xD#4
  | .lea _ _ => 0xE#4
  | .trap _ => 0xF#4
  | .getc => 0xF#4
  | .out => 0xF#4
  | .puts => 0xF#4
  | .inp => 0xF#4
  | .putsp => 0xF#4
  | .halt => 0xF#4

/-- The word of the instruction carries its opcode number in instr[15:12]. -/
def Opcode.Statement (i : Instr) : Prop := (encode i).extractLsb' 12 4 = opcodeNumber i

theorem Opcode.br (nzp : BitVec 3) (off : BitVec 9) : Opcode.Statement (.br nzp off) :=
  op_reg_off9_op _ _ _

theorem Opcode.addReg (dr : Reg) (sr1 : Reg) (sr2 : Reg) : Opcode.Statement (.addReg dr sr1 sr2) :=
  op_reg_reg_flag_dc_reg_op _ _ _ _ _ _

theorem Opcode.addImm (dr : Reg) (sr1 : Reg) (imm : BitVec 5) : Opcode.Statement (.addImm dr sr1 imm) :=
  op_reg_reg_flag_imm_op _ _ _ _ _

theorem Opcode.ld (dr : Reg) (off : BitVec 9) : Opcode.Statement (.ld dr off) :=
  op_reg_off9_op _ _ _

theorem Opcode.st (sr : Reg) (off : BitVec 9) : Opcode.Statement (.st sr off) :=
  op_reg_off9_op _ _ _

theorem Opcode.jsr (off : BitVec 11) : Opcode.Statement (.jsr off) :=
  op_flag_off11_op _ _ _

theorem Opcode.jsrr (base : Reg) : Opcode.Statement (.jsrr base) :=
  op_flag_dc_reg_dc_op _ _ _ _ _

theorem Opcode.andReg (dr : Reg) (sr1 : Reg) (sr2 : Reg) : Opcode.Statement (.andReg dr sr1 sr2) :=
  op_reg_reg_flag_dc_reg_op _ _ _ _ _ _

theorem Opcode.andImm (dr : Reg) (sr1 : Reg) (imm : BitVec 5) : Opcode.Statement (.andImm dr sr1 imm) :=
  op_reg_reg_flag_imm_op _ _ _ _ _

theorem Opcode.ldr (dr : Reg) (base : Reg) (off : BitVec 6) : Opcode.Statement (.ldr dr base off) :=
  op_reg_reg_off6_op _ _ _ _

theorem Opcode.str (sr : Reg) (base : Reg) (off : BitVec 6) : Opcode.Statement (.str sr base off) :=
  op_reg_reg_off6_op _ _ _ _

theorem Opcode.rti (ignored : BitVec 12) : Opcode.Statement (.rti ignored) :=
  op_field12_op _ _

theorem Opcode.not (dr : Reg) (sr : Reg) : Opcode.Statement (.not dr sr) :=
  op_reg_reg_off6_op _ _ _ _

theorem Opcode.ldi (dr : Reg) (off : BitVec 9) : Opcode.Statement (.ldi dr off) :=
  op_reg_off9_op _ _ _

theorem Opcode.sti (sr : Reg) (off : BitVec 9) : Opcode.Statement (.sti sr off) :=
  op_reg_off9_op _ _ _

theorem Opcode.jmp (base : Reg) : Opcode.Statement (.jmp base) :=
  op_reg_reg_off6_op _ _ _ _

theorem Opcode.res (ignored : BitVec 12) : Opcode.Statement (.res ignored) :=
  op_field12_op _ _

theorem Opcode.lea (dr : Reg) (off : BitVec 9) : Opcode.Statement (.lea dr off) :=
  op_reg_off9_op _ _ _

theorem Opcode.trap (vect : BitVec 8) : Opcode.Statement (.trap vect) :=
  op_dc_vect_op _ _ _

theorem Opcode.getc : Opcode.Statement .getc :=
  by unfold Opcode.Statement; decide

theorem Opcode.out : Opcode.Statement .out :=
  by unfold Opcode.Statement; decide

theorem Opcode.puts : Opcode.Statement .puts :=
  by unfold Opcode.Statement; decide

theorem Opcode.inp : Opcode.Statement .inp :=
  by unfold Opcode.Statement; decide

theorem Opcode.putsp : Opcode.Statement .putsp :=
  by unfold Opcode.Statement; decide

theorem Opcode.halt : Opcode.Statement .halt :=
  by unfold Opcode.Statement; decide

end Sys2Proof.Laws
end

