-- ==== Sys2Proof/Laws/Step.lean ====
section
/-! SUPPORT. What a predicate on states needs to come through an instruction and through a step: that
each of the updates below keeps it. -/

namespace Sys2Proof.Machine

/-- The updates every instruction is made of keep `P`. -/
structure KeptByUpdates (P : State → Prop) : Prop where
  setReg : ∀ s i v, P s → P (s.setReg i v)
  setcc : ∀ s v, P s → P (s.setcc v)
  setPc : ∀ s v, P s → P (s.setPc v)
  setWord : ∀ s a v, P s → P (s.setWord a v)
  setRun : ∀ s r, P s → P (s.setRun r)
  emitAll : ∀ s cs, P s → P (s.emitAll cs)
  setHold : ∀ (s : State) h, P s → P { s with hold := h }
  setKeys : ∀ (s : State) ks arr, P s → P { s with keys := ks, arrivals := arr }

variable {P : State → Prop}

theorem KeptByUpdates.setWithCond (k : KeptByUpdates P) {s : State} (i : Reg) (v : Word) (h : P s) :
    P (s.setWithCond i v) := k.setcc _ _ (k.setReg _ _ _ h)

theorem KeptByUpdates.emit (k : KeptByUpdates P) {s : State} (c : Byte) (h : P s) : P (s.emit c) :=
  k.emitAll s [c] h

theorem KeptByUpdates.memRead (k : KeptByUpdates P) {a v : Word} {s t : State} (hs : P s)
    (h : memRead a s = some (v, t)) : P t := by
  rcases memRead_cases h with ⟨-, -, rfl⟩ | ⟨-, -, rfl⟩ | ⟨-, b, rest, -, -, rfl⟩ | ⟨-, -, -, rfl⟩
  · exact hs
  · rw [land_eq]; exact k.setKeys _ _ _ hs
  · rw [land_eq]; exact k.setWord _ _ _ (k.setKeys s _ _ hs)
  · rw [land_eq]; exact k.setKeys _ _ _ hs

theorem KeptByUpdates.withRead (k : KeptByUpdates P) {a : Word} {s : State}
    {f : Word → State → State} (hs : P s) (hf : ∀ v t, P t → P (f v t)) : P (withRead a s f) :=
  withRead_keeps hs (fun _ _ _ _ h e => k.memRead h e) (fun _ _ h => k.setRun _ _ h)
    fun v t _ ht => hf v t ht

theorem KeptByUpdates.deliverKey (k : KeptByUpdates P) {s : State} (h : Hold) (b : Byte) (hs : P s) :
    P (deliverKey h b s) := by
  have h1 := k.setHold s none hs
  have h2 := k.emit b h1
  have h3 : ∀ s p v, P s → P (s.setccIf p v) := by
    intro s p v hs
    cases p
    · exact hs
    · exact k.setcc s v hs
  cases h
  · exact h3 _ _ _ (k.setReg _ _ _ h1)
  · exact h3 _ _ _ (k.setReg _ _ _ h2)

theorem KeptByUpdates.awaitKey (k : KeptByUpdates P) {s : State} (h : Hold) (hs : P s) :
    P (awaitKey h s) := by
  cases hp : pendingNow s with
  | nil =>
    rw [awaitKey_of_none hp]
    exact k.setHold _ _ (k.setKeys s [] s.arrivals.advance hs)
  | cons b rest =>
    rw [awaitKey_of_pending hp]
    exact k.deliverKey h b (k.setKeys s _ _ hs)

/-- Every instruction answers a next state. -/
theorem exec_next (i : Instr) (s : State) : ∃ t, exec i s = .next t := by
  cases i <;> exact ⟨_, rfl⟩

/-- A predicate that every update keeps comes through every instruction. -/
theorem KeptByUpdates.exec (k : KeptByUpdates P) {i : Instr} {s t : State} (hs : P s)
    (h : exec i s = .next t) : P t := by
  have hl : P s.link := k.setReg _ _ _ hs
  have hread : ∀ a v s t, P s → Machine.memRead a s = some (v, t) → P t := fun _ _ _ _ h e => k.memRead h e
  have hraise : ∀ a s, P s → P (s.raise (.unimplementedMemoryMap a)) := fun _ _ h => k.setRun _ _ h
  have hemit : ∀ c s, P s → P (s.emit c) := fun c _ h => k.emit c h
  cases i <;>
    simp only [Machine.exec, execBr, execAddReg, execAddImm, execLd, execSt, execJsr, execJsrr,
      execAndReg, execAndImm, execLdr, execStr, execRti, execNot, execLdi, execSti, execJmp, execRes,
      execLea, execTrap, execGetc, execOut, execPuts, execIn, execPutsp, execHalt,
      Host.Outcome.next.injEq] at h <;>
    subst h
  case br =>
    split
    · exact k.setPc _ _ hs
    · exact hs
  case ld => exact k.withRead hs fun _ _ ht => k.setWithCond _ _ ht
  case ldr => exact k.withRead hs fun _ _ ht => k.setWithCond _ _ ht
  case ldi => exact k.withRead hs fun _ _ ht => k.withRead ht fun _ _ ht => k.setWithCond _ _ ht
  case st => exact k.setWord _ _ _ hs
  case str => exact k.setWord _ _ _ hs
  case sti => exact k.withRead hs fun _ _ ht => k.setWord _ _ _ ht
  case jsr => exact k.setPc _ _ hl
  case jsrr => exact k.setPc _ _ hl
  case jmp => exact k.setPc _ _ hs
  case rti => exact k.setRun _ _ hs
  case res => exact k.setRun _ _ hs
  case trap => exact k.setRun _ _ hl
  case getc => exact k.awaitKey _ hl
  case out => exact k.emit _ hl
  case puts => exact putsWalk_keeps hread hraise hemit _ _ _ hl
  case inp => exact k.awaitKey _ (k.emitAll _ _ hl)
  case putsp => exact putspWalk_keeps hread hraise hemit _ _ _ hl
  case halt => exact k.setRun _ _ (k.emitAll _ _ hl)
  all_goals exact k.setWithCond _ _ hs

/-- What a step that answers a next state did. -/
theorem step_cases {s t : State} (h : step s = .next t) :
    (s.run = .loaded ∧ t = s.start) ∨
    (s.run = .running ∧ ∃ hd, s.hold = some hd ∧ t = awaitKey hd s) ∨
    (s.run = .running ∧ s.hold = none ∧ ∃ w u, memRead s.pc s = some (w, u) ∧
      exec (decode w) u.advance = .next t) ∨
    (s.run = .running ∧ s.hold = none ∧ memRead s.pc s = none ∧
      t = s.raise (.unimplementedMemoryMap s.pc)) ∨
    (s.run = .halted ∧ t = s) := by
  unfold step at h
  split at h
  · exact .inl ⟨by assumption, by cases h; rfl⟩
  · unfold runStep at h
    split at h
    · exact .inr (.inl ⟨by assumption, _, by assumption, by cases h; rfl⟩)
    · unfold cycle at h
      split at h
      · exact .inr (.inr (.inl ⟨by assumption, by assumption, _, _, by assumption, h⟩))
      · exact .inr (.inr (.inr (.inl ⟨by assumption, by assumption, by assumption, by cases h; rfl⟩)))
  · exact .inr (.inr (.inr (.inr ⟨by assumption, by cases h; rfl⟩)))
  · cases h

/-- A fetch that does not fault is not from 0xFFFF, so the advance is the increment. -/
theorem advance_of_fetch {s u : State} {w : Word} (h : memRead s.pc s = some (w, u)) :
    s.pc ≠ 0xFFFF#16 ∧ u.advance = u.setPc (s.pc + 1#16) := by
  have hpc : u.pc = s.pc := by rw [memRead_frame h]
  have hne : s.pc ≠ 0xFFFF#16 := by
    intro e
    have : memRead s.pc s = none := memRead_eq_none.mpr (by rw [e]; decide)
    simp [this] at h
  exact ⟨hne, by rw [State.advance, if_neg (by rw [hpc]; exact hne), hpc]⟩

/-- A predicate that every update keeps comes through every step. -/
theorem KeptByUpdates.step (k : KeptByUpdates P) {s t : State} (hs : P s) (h : step s = .next t) :
    P t := by
  rcases step_cases h with ⟨-, rfl⟩ | ⟨-, hd, -, rfl⟩ | ⟨-, -, w, u, hu, he⟩ | ⟨-, -, -, rfl⟩ | ⟨-, rfl⟩
  · exact k.setRun _ _ hs
  · exact k.awaitKey hd hs
  · rw [(advance_of_fetch hu).2] at he
    exact k.exec (k.setPc _ _ (k.memRead hs hu)) he
  · exact k.setRun _ _ hs
  · exact hs

end Sys2Proof.Machine
end

