-- ==== Sys2Proof/Tests/Slice0.lean ====
section
/-! SUPPORT. The model's own tests: words and results written out by hand from spec/ (95_test_vectors.md
and the examples of the instruction rules), one step each; and, for every obligation with hypotheses,
states that meet them. -/

namespace Sys2Proof.Tests

open Sys2Proof.Machine

/-- A running block with these registers, flags, words of memory and pending keys, and everything else
as at reset (the "before" columns of 95_test_vectors.md). The host is silent for the next transactions. -/
def cpu (pc : Word) (regs : List (Reg × Word)) (cond : BitVec 3) (words : List (Word × Word))
    (keys : List Byte) : State :=
  words.foldl (fun s m => s.setWord m.1 m.2)
    (regs.foldl (fun s r => s.setReg r.1 r.2)
      { State.reset with
        pc := pc, cond := cond, keys := keys, run := .running, arrivals := ⟨[[], [], []], 0⟩ })

/-- A block that waits for a key in GETC or IN, with the batches of keys still to come. -/
def waiting (h : Hold) (arrivals : List (List Byte)) : State :=
  { cpu 0x3001#16 [] 0b001#3 [] [] with hold := some h, arrivals := ⟨arrivals, 0⟩ }

/-! ## WellFormed: a service vector is no `trap` -/

theorem test_wf_refuses_0x20 : WellFormed (.trap 0x20#8) = false := by decide

theorem test_wf_refuses_0x25 : WellFormed (.trap 0x25#8) = false := by decide

theorem test_wf_accepts_0x1F : WellFormed (.trap 0x1F#8) = true := by decide

theorem test_wf_accepts_0x26 : WellFormed (.trap 0x26#8) = true := by decide

/-! ## Decode: each constructor's word, from the bit patterns of 30_encoding.md R82 -/

theorem test_decode_br : decode 0b0000_010_111111100#16 = .br 0b010#3 0x1FC#9 := by decide

theorem test_decode_addReg : decode 0b0001_001_010_0_11_011#16 = .addReg 1 2 3 := by decide

theorem test_decode_addImm : decode 0b0001_000_000_1_10000#16 = .addImm 0 0 0x10#5 := by decide

theorem test_decode_ld : decode 0b0010_010_100000000#16 = .ld 2 0x100#9 := by decide

theorem test_decode_st : decode 0b0011_001_000000011#16 = .st 1 3#9 := by decide

theorem test_decode_jsr : decode 0b0100_1_10000000000#16 = .jsr 0x400#11 := by decide

theorem test_decode_jsrr : decode 0b0100_0_11_100_111111#16 = .jsrr 4 := by decide

theorem test_decode_andReg : decode 0b0101_011_100_0_00_101#16 = .andReg 3 4 5 := by decide

theorem test_decode_andImm : decode 0b0101_000_001_1_10000#16 = .andImm 0 1 0x10#5 := by decide

theorem test_decode_ldr : decode 0b0110_100_101_111101#16 = .ldr 4 5 0x3D#6 := by decide

theorem test_decode_str : decode 0b0111_110_010_011111#16 = .str 6 2 0x1F#6 := by decide

theorem test_decode_rti : decode 0b1000_111111111111#16 = .rti 0xFFF#12 := by decide

theorem test_decode_not : decode 0b1001_010_011_000000#16 = .not 2 3 := by decide

theorem test_decode_ldi : decode 0b1010_011_000000010#16 = .ldi 3 2#9 := by decide

theorem test_decode_sti : decode 0b1011_001_000000100#16 = .sti 1 4#9 := by decide

theorem test_decode_jmp : decode 0b1100_111_011_111111#16 = .jmp 3 := by decide

theorem test_decode_res : decode 0b1101_000000000001#16 = .res 1#12 := by decide

theorem test_decode_lea : decode 0b1110_001_111111110#16 = .lea 1 0x1FE#9 := by decide

theorem test_decode_trap : decode 0b1111_0101_00100110#16 = .trap 0x26#8 := by decide

theorem test_decode_getc : decode 0b1111_0000_00100000#16 = .getc := by decide

theorem test_decode_out : decode 0b1111_1111_00100001#16 = .out := by decide

theorem test_decode_puts : decode 0b1111_0000_00100010#16 = .puts := by decide

theorem test_decode_inp : decode 0b1111_0000_00100011#16 = .inp := by decide

theorem test_decode_putsp : decode 0b1111_0000_00100100#16 = .putsp := by decide

theorem test_decode_halt : decode 0b1111_0101_00100101#16 = .halt := by decide

/-! ## Encode: the examples of the instruction rules -/

theorem test_encode_add : encode (.addReg 1 2 3) = 0x1283#16 := by decide

theorem test_encode_not : encode (.not 4 5) = 0x997F#16 := by decide

theorem test_encode_jsr : encode (.jsr 16#11) = 0x4810#16 := by decide

theorem test_encode_ret : encode (.jmp 7) = 0xC1C0#16 := by decide

theorem test_table_word_is_one_word :
    decodeTableWord 16 0xF025 = some .halt ∧ decodeTableWord 32 0xF025 = none := by decide

/-! ## Sign extension: 95_test_vectors.md section 2 -/

theorem test_sext :
    sextLow 1 0b1#16 = 0xFFFF#16 ∧ sextLow 5 0x10#16 = 0xFFF0#16 ∧ sextLow 9 0xFFFF#16 = 0xFFFF#16 ∧
      sextLow 11 0x3FF#16 = 0x03FF#16 ∧ sextLow 16 0x8000#16 = 0x8000#16 := by decide

/-! ## One step each: 95_test_vectors.md section 4 -/

/-- OP3. -/
theorem test_add_reg_doubles :
    nextWith (step (cpu 0x3000#16 [(1, 0x4000#16)] 0b000#3 [(0x3000#16, 0x1241#16)] [])) (fun t =>
      t.pc == 0x3001#16 && t.reg 1 == 0x8000#16 && t.cond == 0b100#3 && t.run == .running) = true := by decide

/-- OP5. -/
theorem test_add_imm_wraps :
    nextWith (step (cpu 0x3000#16 [(0, 0xFFFF#16)] 0b000#3 [(0x3000#16, 0x1021#16)] [])) (fun t =>
      t.pc == 0x3001#16 && t.reg 0 == 0x0000#16 && t.cond == 0b010#3 && t.run == .running) = true := by decide

/-- OP6. -/
theorem test_add_imm_smallest :
    nextWith (step (cpu 0x3000#16 [(0, 0x0010#16)] 0b000#3 [(0x3000#16, 0x1030#16)] [])) (fun t =>
      t.pc == 0x3001#16 && t.reg 0 == 0x0000#16 && t.cond == 0b010#3 && t.run == .running) = true := by decide

/-- OP9. -/
theorem test_and_reg :
    nextWith (step (cpu 0x3000#16 [(4, 0xF0F0#16), (5, 0x3C3C#16)] 0b000#3 [(0x3000#16, 0x5705#16)] [])) (fun t =>
      t.pc == 0x3001#16 && t.reg 3 == 0x3030#16 && t.cond == 0b001#3 && t.run == .running) = true := by decide

/-- OP12. -/
theorem test_and_imm_smallest :
    nextWith (step (cpu 0x3000#16 [(1, 0x123F#16)] 0b000#3 [(0x3000#16, 0x5070#16)] [])) (fun t =>
      t.pc == 0x3001#16 && t.reg 0 == 0x1230#16 && t.cond == 0b001#3 && t.run == .running) = true := by decide

/-- OP13. -/
theorem test_not_writes_dr :
    nextWith (step (cpu 0x3000#16 [(5, 0x00FF#16)] 0b000#3 [(0x3000#16, 0x997F#16)] [])) (fun t =>
      t.pc == 0x3001#16 && t.reg 4 == 0xFF00#16 && t.reg 5 == 0x00FF#16 && t.cond == 0b100#3 && t.run == .running) = true := by decide

/-- OP15. -/
theorem test_not_ignores_low_bits :
    nextWith (step (cpu 0x3000#16 [(3, 0x8000#16)] 0b000#3 [(0x3000#16, 0x94C0#16)] [])) (fun t =>
      t.pc == 0x3001#16 && t.reg 2 == 0x7FFF#16 && t.cond == 0b001#3 && t.run == .running) = true := by decide

/-- LD1. -/
theorem test_ld :
    nextWith (step (cpu 0x3000#16 [] 0b000#3 [(0x3000#16, 0x2405#16), (0x3006#16, 0xABCD#16)] [])) (fun t =>
      t.pc == 0x3001#16 && t.reg 2 == 0xABCD#16 && t.cond == 0b100#3 && t.run == .running) = true := by decide

/-- LD2. -/
theorem test_ld_backwards :
    nextWith (step (cpu 0x3000#16 [] 0b000#3 [(0x3000#16, 0x2500#16), (0x2F01#16, 0x0007#16)] [])) (fun t =>
      t.pc == 0x3001#16 && t.reg 2 == 0x0007#16 && t.cond == 0b001#3 && t.run == .running) = true := by decide

/-- LD7. -/
theorem test_ldi_takes_a_key :
    nextWith (step (cpu 0x3000#16 [] 0b000#3 [(0x3000#16, 0xA001#16), (0x3002#16, 0xFE02#16)] [0x61#8, 0x62#8])) (fun t =>
      t.pc == 0x3001#16 && t.reg 0 == 0x0061#16 && t.cond == 0b001#3 && t.word 0xFE02#16 == 0x0061#16 && t.keys == [0x62#8] && t.run == .running) = true := by decide

/-- LD9. -/
theorem test_ldi_faults :
    nextWith (step (cpu 0x3000#16 [] 0b000#3 [(0x3000#16, 0xA001#16), (0x3002#16, 0xFE04#16)] [])) (fun t =>
      t.pc == 0x3001#16 && t.reg 0 == 0x0000#16 && t.cond == 0b000#3 && t.run == .faulted (.unimplementedMemoryMap 0xFE04#16)) = true := by decide

/-- LD11. -/
theorem test_ldr_old_base :
    nextWith (step (cpu 0x3000#16 [(1, 0x4000#16)] 0b000#3 [(0x3000#16, 0x6240#16), (0x4000#16, 0x1234#16)] [])) (fun t =>
      t.pc == 0x3001#16 && t.reg 1 == 0x1234#16 && t.cond == 0b001#3 && t.run == .running) = true := by decide

/-- LD12. -/
theorem test_ldr_wraps :
    nextWith (step (cpu 0x3000#16 [(1, 0xFFFF#16)] 0b000#3 [(0x3000#16, 0x6041#16), (0x0000#16, 0x0005#16)] [])) (fun t =>
      t.pc == 0x3001#16 && t.reg 0 == 0x0005#16 && t.cond == 0b001#3 && t.run == .running) = true := by decide

/-- LD14. -/
theorem test_lea :
    nextWith (step (cpu 0x3000#16 [] 0b000#3 [(0x3000#16, 0xE00A#16)] [])) (fun t =>
      t.pc == 0x3001#16 && t.reg 0 == 0x300B#16 && t.cond == 0b001#3 && t.run == .running) = true := by decide

/-- LD16. -/
theorem test_lea_wraps :
    nextWith (step (cpu 0x0000#16 [] 0b000#3 [(0x0000#16, 0xE3FE#16)] [])) (fun t =>
      t.pc == 0x0001#16 && t.reg 1 == 0xFFFF#16 && t.cond == 0b100#3 && t.run == .running) = true := by decide

/-- ST1. -/
theorem test_st :
    nextWith (step (cpu 0x3000#16 [(1, 0x1234#16)] 0b100#3 [(0x3000#16, 0x3203#16)] [])) (fun t =>
      t.pc == 0x3001#16 && t.cond == 0b100#3 && t.word 0x3004#16 == 0x1234#16 && t.run == .running) = true := by decide

/-- ST2. -/
theorem test_st_over_itself :
    nextWith (step (cpu 0x3000#16 [(1, 0xDEAD#16)] 0b000#3 [(0x3000#16, 0x33FF#16)] [])) (fun t =>
      t.pc == 0x3001#16 && t.cond == 0b000#3 && t.word 0x3000#16 == 0xDEAD#16 && t.run == .running) = true := by decide

/-- ST4. -/
theorem test_sti_to_the_key_cache :
    nextWith (step (cpu 0x3000#16 [(1, 0x0077#16)] 0b000#3 [(0x3000#16, 0xB200#16), (0x3001#16, 0xFE02#16)] [])) (fun t =>
      t.pc == 0x3001#16 && t.cond == 0b000#3 && t.word 0xFE02#16 == 0x0077#16 && t.run == .running) = true := by decide

/-- ST5. -/
theorem test_sti_to_an_unmapped_word :
    nextWith (step (cpu 0x3000#16 [(1, 0x0077#16)] 0b000#3 [(0x3000#16, 0xB200#16), (0x3001#16, 0xFE01#16)] [])) (fun t =>
      t.pc == 0x3001#16 && t.cond == 0b000#3 && t.word 0xFE01#16 == 0x0077#16 && t.run == .running) = true := by decide

/-- ST6. -/
theorem test_str :
    nextWith (step (cpu 0x3000#16 [(2, 0x4000#16), (6, 0xBEEF#16)] 0b000#3 [(0x3000#16, 0x7C9F#16)] [])) (fun t =>
      t.pc == 0x3001#16 && t.cond == 0b000#3 && t.word 0x401F#16 == 0xBEEF#16 && t.run == .running) = true := by decide

/-- ST7. -/
theorem test_str_wraps :
    nextWith (step (cpu 0x3000#16 [(0, 0x0001#16), (1, 0x0010#16)] 0b000#3 [(0x3000#16, 0x7060#16)] [])) (fun t =>
      t.pc == 0x3001#16 && t.cond == 0b000#3 && t.word 0xFFF0#16 == 0x0001#16 && t.run == .running) = true := by decide

/-- CT33. -/
theorem test_br_taken :
    nextWith (step (cpu 0x3004#16 [] 0b010#3 [(0x3004#16, 0x05FC#16)] [])) (fun t =>
      t.pc == 0x3001#16 && t.cond == 0b010#3 && t.run == .running) = true := by decide

/-- CT23. -/
theorem test_br_not_taken :
    nextWith (step (cpu 0x3000#16 [] 0b010#3 [(0x3000#16, 0x0A05#16)] [])) (fun t =>
      t.pc == 0x3001#16 && t.cond == 0b010#3 && t.run == .running) = true := by decide

/-- CT38. -/
theorem test_jmp_ignores_dc :
    nextWith (step (cpu 0x3000#16 [(3, 0x4000#16)] 0b000#3 [(0x3000#16, 0xCEFF#16)] [])) (fun t =>
      t.pc == 0x4000#16 && t.run == .running) = true := by decide

/-- CT40. -/
theorem test_jsr_backwards :
    nextWith (step (cpu 0x3000#16 [] 0b000#3 [(0x3000#16, 0x4C00#16)] [])) (fun t =>
      t.pc == 0x2C01#16 && t.reg 7 == 0x3001#16 && t.run == .running) = true := by decide

/-- CT42. -/
theorem test_jsrr :
    nextWith (step (cpu 0x3000#16 [(4, 0x5000#16)] 0b000#3 [(0x3000#16, 0x4100#16)] [])) (fun t =>
      t.pc == 0x5000#16 && t.reg 7 == 0x3001#16 && t.run == .running) = true := by decide

/-- CT43. -/
theorem test_jsrr_r7 :
    nextWith (step (cpu 0x3000#16 [(7, 0x5000#16)] 0b000#3 [(0x3000#16, 0x41C0#16)] [])) (fun t =>
      t.pc == 0x3001#16 && t.reg 7 == 0x3001#16 && t.run == .running) = true := by decide

/-- TR1. -/
theorem test_getc :
    nextWith (step (cpu 0x3000#16 [] 0b000#3 [(0x3000#16, 0xF020#16)] [0x61#8])) (fun t =>
      t.pc == 0x3001#16 && t.reg 0 == 0x0061#16 && t.reg 7 == 0x3001#16 && t.out == [] && t.keys == [] && t.run == .running) = true := by decide

/-- TR4. -/
theorem test_getc_holds :
    nextWith (step (cpu 0x3000#16 [] 0b000#3 [(0x3000#16, 0xF020#16)] [])) (fun t =>
      t.pc == 0x3001#16 && t.reg 7 == 0x3001#16 && t.cond == 0b000#3 && t.out == [] && t.run == .running && t.hold == some .getc) = true := by decide

/-- TR5. -/
theorem test_out :
    nextWith (step (cpu 0x3000#16 [(0, 0x1241#16)] 0b000#3 [(0x3000#16, 0xF021#16)] [])) (fun t =>
      t.pc == 0x3001#16 && t.reg 7 == 0x3001#16 && t.cond == 0b000#3 && t.out == [0x41#8] && t.run == .running) = true := by decide

/-- TR8. -/
theorem test_puts_high_bytes :
    nextWith (step (cpu 0x3000#16 [(0, 0x4000#16)] 0b000#3 [(0x3000#16, 0xF022#16), (0x4000#16, 0x4142#16), (0x4001#16, 0x0100#16)] [])) (fun t =>
      t.pc == 0x3001#16 && t.reg 7 == 0x3001#16 && t.cond == 0b000#3 && t.out == [0x42#8, 0x00#8] && t.run == .running) = true := by decide

/-- TR10. -/
theorem test_puts_into_the_device_page :
    nextWith (step (cpu 0x3000#16 [(0, 0xFDFF#16)] 0b000#3 [(0x3000#16, 0xF022#16), (0xFDFF#16, 0x0041#16)] [0x7A#8])) (fun t =>
      t.pc == 0x3001#16 && t.reg 7 == 0x3001#16 && t.cond == 0b000#3 && t.out == [0x41#8, 0x00#8] && t.run == .faulted (.unimplementedMemoryMap 0xFE01#16)) = true := by decide

/-- TR11; what it emits is test_in_echoes. -/
theorem test_in :
    nextWith (step (cpu 0x3000#16 [] 0b000#3 [(0x3000#16, 0xF023#16)] [0x79#8])) (fun t =>
      t.pc == 0x3001#16 && t.reg 0 == 0x0079#16 && t.reg 7 == 0x3001#16 && t.keys == [] && t.run == .running) = true := by decide

/-- TR11: the prompt, then the key, once. -/
theorem test_in_echoes :
    ∃ t, exec .inp (cpu 0x3001#16 [] 0b000#3 [] [0x79#8]) = .next t ∧
      t.out = Config.pInPrompt ++ [0x79#8] := ⟨_, rfl, rfl⟩

/-- TR12. -/
theorem test_putsp :
    nextWith (step (cpu 0x3000#16 [(0, 0x4000#16)] 0b000#3 [(0x3000#16, 0xF024#16), (0x4000#16, 0x6548#16), (0x4001#16, 0x006C#16)] [])) (fun t =>
      t.pc == 0x3001#16 && t.reg 7 == 0x3001#16 && t.cond == 0b000#3 && t.out == [0x48#8, 0x65#8, 0x6C#8] && t.run == .running) = true := by decide

/-- TR13. -/
theorem test_putsp_zero_low_byte :
    nextWith (step (cpu 0x3000#16 [(0, 0x4000#16)] 0b000#3 [(0x3000#16, 0xF024#16), (0x4000#16, 0x4100#16)] [])) (fun t =>
      t.pc == 0x3001#16 && t.reg 7 == 0x3001#16 && t.cond == 0b000#3 && t.out == [] && t.run == .running) = true := by decide

/-- TR16. -/
theorem test_halt :
    nextWith (step (cpu 0x3000#16 [] 0b000#3 [(0x3000#16, 0xF525#16)] [])) (fun t =>
      t.pc == 0x3001#16 && t.reg 7 == 0x3001#16 && t.cond == 0b000#3 && t.run == .halted) = true := by decide

/-- TR17. -/
theorem test_trap_x26 :
    nextWith (step (cpu 0x3000#16 [(7, 0x1111#16)] 0b000#3 [(0x3000#16, 0xF026#16)] [])) (fun t =>
      t.pc == 0x3001#16 && t.reg 7 == 0x3001#16 && t.cond == 0b000#3 && t.run == .faulted (.unimplementedTrap 0x26#8)) = true := by decide

/-- RS2. -/
theorem test_rti :
    nextWith (step (cpu 0x3000#16 [] 0b000#3 [(0x3000#16, 0x8FFF#16)] [])) (fun t =>
      t.pc == 0x3001#16 && t.run == .faulted (.privilegeViolation 0x8FFF#16)) = true := by decide

/-- RS4. -/
theorem test_res :
    nextWith (step (cpu 0x3000#16 [] 0b000#3 [(0x3000#16, 0xDFFF#16)] [])) (fun t =>
      t.pc == 0x3001#16 && t.run == .faulted (.illegalInstruction 0xDFFF#16)) = true := by decide

/-- CY2. -/
theorem test_fetch_kbsr_with_key :
    nextWith (step (cpu 0xFE00#16 [] 0b000#3 [(0xFE00#16, 0x1234#16)] [0x41#8])) (fun t =>
      t.pc == 0xFE01#16 && t.run == .faulted (.privilegeViolation 0x8000#16)) = true := by decide

/-- CY3. -/
theorem test_fetch_unmapped :
    nextWith (step (cpu 0xFE01#16 [] 0b000#3 [(0xFE01#16, 0x1234#16)] [])) (fun t =>
      t.pc == 0xFE01#16 && t.run == .faulted (.unimplementedMemoryMap 0xFE01#16)) = true := by decide

/-- CY4. -/
theorem test_fetch_kbdr_key :
    nextWith (step (cpu 0xFE02#16 [] 0b000#3 [(0xFE02#16, 0x1234#16)] [0x21#8])) (fun t =>
      t.pc == 0xFE03#16 && t.cond == 0b000#3 && t.word 0xFE02#16 == 0x0021#16 && t.keys == [] && t.run == .running) = true := by decide

/-- CY5. -/
theorem test_fetch_kbdr_cache :
    nextWith (step (cpu 0xFE02#16 [] 0b000#3 [(0xFE02#16, 0xF025#16)] [])) (fun t =>
      t.pc == 0xFE03#16 && t.reg 7 == 0xFE03#16 && t.run == .halted) = true := by decide

/-- CY6. -/
theorem test_fetch_top :
    nextWith (step (cpu 0xFFFF#16 [] 0b000#3 [(0xFFFF#16, 0xF025#16)] [])) (fun t =>
      t.pc == 0xFFFF#16 && t.run == .faulted (.unimplementedMemoryMap 0xFFFF#16)) = true := by decide

/-- CY7. -/
theorem test_fetch_last_array_word :
    nextWith (step (cpu 0xFDFF#16 [] 0b000#3 [(0xFDFF#16, 0x1021#16)] [])) (fun t =>
      t.pc == 0xFE00#16 && t.reg 0 == 0x0001#16 && t.cond == 0b001#3 && t.run == .running) = true := by decide

/-! ## The host: 20_memory.md R71, 92_eei_decisions.md D14 -/

/-- The oldest key first, each arrival behind the ones pending. -/
theorem test_batches_land_in_order :
    (waiting .getc [[0x61#8, 0x62#8], [0x63#8]]).land.land.keys = [0x61#8, 0x62#8, 0x63#8] := by decide

/-- With no batch listed the host goes on with the free schedule. -/
theorem test_schedule_never_ends :
    (waiting .getc []).land.land.keys = Config.hostKeys 0 ++ Config.hostKeys 1 := by
  rw [land_eq, land_eq]; rfl

/-! ## Loading: 95_test_vectors.md section 3 -/

/-- LI1. -/
theorem test_load_image :
    (State.launch (some [0x30, 0x00, 0x12, 0x34]) [] ⟨[], 0⟩).word 0x3000#16 = 0x1234#16 := by decide

/-- LI8. -/
theorem test_load_top :
    (State.launch (some [0xFF, 0xFF, 0x12, 0x34]) [] ⟨[], 0⟩).word 0xFFFF#16 = 0x1234#16 := by decide

/-- LI7. -/
theorem test_load_odd :
    (State.launch (some [0x30, 0x00, 0x12]) [] ⟨[], 0⟩).run = .faulted .loadError := by decide

/-- LI9. -/
theorem test_load_past_top :
    (State.launch (some [0xFF, 0xFF, 0x12, 0x34, 0x56, 0x78]) [] ⟨[], 0⟩).run = .faulted .loadError := by decide

/-! ## States that meet the hypotheses of the obligations, one for each clause -/

theorem witness_DecodeOfEncodeIsIdentity :
    WellFormed (.addReg 1 2 3) = true ∧ WellFormed (.trap 0xFF#8) = true := by decide

theorem witness_OnlyReadBitsDecideTheInstruction :
    0x94FF#16 &&& careMask (decode 0x94C0#16) = 0x94C0#16 &&& careMask (decode 0x94C0#16) := by decide

theorem witness_SignExtensionReplicatesTheSignBit :
    1 ≤ 1 ∧ 1 ≤ 16 ∧ 16 ≤ 16 ∧ (0x000F#16).toNat % 2 ^ 5 < 2 ^ (5 - 1) ∧
      ¬ (0x0010#16).toNat % 2 ^ 5 < 2 ^ (5 - 1) := by decide

theorem witness_LoaderPlacesBigEndianWordsFromTheOrigin :
    (0xFFFF#16).toNat + [0x1234#16].length ≤ 0x10000 ∧ 0 < [0x1234#16].length ∧
      ∀ i < [0x1234#16].length, (0x0000#16 : Word) ≠ 0xFFFF#16 + BitVec.ofNat 16 i := by decide

theorem witness_BadHeaderIsLoadErrorAndBareHeaderIsNoLoad :
    (∀ bytes : List Byte, (none : Option (List Byte)) = some bytes → bytes.length < 2) ∧ [0x30#8].length < 2 := ⟨fun _ h => by (cases h), by decide⟩

theorem witness_IllShapedImageIsRefused :
    [0x30#8, 0x00#8, 0x12#8].length % 2 = 1 ∧
      0x10000 < (0xFFFF#16).toNat + [0x1234#16, 0x5678#16].length := by decide

theorem witness_FirstCycleFetchesFromLoadOrigin :
    (State.launch (some [0x40, 0x00, 0xF0, 0x25]) [0x61#8] ⟨[], 7⟩).run = .loaded := by decide

theorem witness_StepRunsTheDecodedInstruction :
    Ready (cpu 0xFDFF#16 [] 0b000#3 [(0xFDFF#16, 0x1021#16)] []) ∧
      (∃ w u, memRead 0xFDFF#16 (cpu 0xFDFF#16 [] 0b000#3 [(0xFDFF#16, 0x1021#16)] []) = some (w, u)) ∧
      Ready (cpu 0xFFFF#16 [] 0b000#3 [] []) ∧ memRead 0xFFFF#16 (cpu 0xFFFF#16 [] 0b000#3 [] []) = none := ⟨⟨rfl, rfl⟩, ⟨_, _, rfl⟩, ⟨rfl, rfl⟩, by decide⟩

theorem witness_StoreIsSeenByTheNextFetch :
    Ready (cpu 0xFDFF#16 [(1, 0xFDFE#16)] 0b000#3 [] []) ∧ (0xFDFF#16).toNat < 0xFE00 ∧
      (∃ t, exec (.st 1 0#9) (cpu 0xFDFF#16 [(1, 0xFDFE#16)] 0b000#3 [] []) = .next t) ∧
      (∃ t, exec (.str 1 1 1#6) (cpu 0xFDFF#16 [(1, 0xFDFE#16)] 0b000#3 [] []) = .next t) ∧
      (0xFDFE#16 : Word) + signedField 1#6 = 0xFDFF#16 := ⟨⟨rfl, rfl⟩, by decide, ⟨_, rfl⟩, ⟨_, rfl⟩, by decide⟩

theorem witness_ReadDecoderFollowsTheAddressMap :
    (0xFDFF#16).toNat < 0xFE00 ∧ ¬ (0xFE00#16).toNat < 0xFE00 ∧
      0xFE03 ≤ (0xFE03#16).toNat ∧ 0xFE03 ≤ (0xFFFF#16).toNat ∧
      ¬ ((0xFE02#16 : Word) = 0xFE01#16 ∨ 0xFE03 ≤ (0xFE02#16).toNat) := by decide

theorem witness_DataReadTakesKeyOrReturnsCache :
    pendingNow (cpu 0x3000#16 [] 0b000#3 [] []) = [] ∧
      pendingNow (cpu 0x3000#16 [] 0b000#3 [] [0x61#8]) = [0x61#8] ∧
      pendingNow (waiting .getc [[0x62#8]]) = [0x62#8] := by decide

theorem witness_ReadyStatusGuaranteesAFreshKey :
    ∃ u, memRead 0xFE00#16 (cpu 0x3000#16 [] 0b000#3 [] [0x61#8]) = some (0x8000#16, u) ∧
      (cpu 0x3000#16 [] 0b000#3 [] [0x61#8, 0x62#8]).keys = u.keys ++ [0x62#8] := ⟨_, rfl, rfl⟩

/-- The three flags of `CondShows`, each at a value that shows it (the operate and load statements). -/
theorem witness_flags :
    CondShows 0x7FFF#16 0b001#3 ∧ CondShows 0x0000#16 0b010#3 ∧ CondShows 0x8000#16 0b100#3 ∧
      0 < (0x7FFF#16).toInt ∧ (0x8000#16).toInt < 0 := by unfold CondShows; decide

theorem witness_LdLoadsThroughTheReadDecoder :
    (∃ v u, memRead (0x3001#16 + signedField 0x0FF#9) (cpu 0x3001#16 [] 0b000#3 [] []) = some (v, u)) ∧
      memRead (0xFE00#16 + signedField 0x001#9) (cpu 0xFE00#16 [] 0b000#3 [] []) = none := ⟨⟨_, _, rfl⟩, by decide⟩

theorem witness_LdrLoadsThroughTheReadDecoder :
    (∃ v u, memRead ((cpu 0x3001#16 [(1, 0xFFFF#16)] 0b000#3 [] []).reg 1 + signedField 1#6)
        (cpu 0x3001#16 [(1, 0xFFFF#16)] 0b000#3 [] []) = some (v, u)) ∧
      memRead ((cpu 0x3001#16 [(1, 0xFFFF#16)] 0b000#3 [] []).reg 1 + signedField 0#6)
        (cpu 0x3001#16 [(1, 0xFFFF#16)] 0b000#3 [] []) = none := ⟨⟨0#16, _, by rw [show (cpu 0x3001#16 [(1, 0xFFFF#16)] 0b000#3 [] []).reg 1 + signedField 1#6 = 0#16 by decide]; rfl⟩, by decide⟩

theorem witness_LdiLoadsThroughThePointer :
    (∃ u, memRead (0x3001#16 + signedField 1#9) (cpu 0x3001#16 [] 0b000#3 [(0x3002#16, 0xFE02#16)] [0x61#8])
          = some (0xFE02#16, u) ∧ ∃ v u', memRead 0xFE02#16 u = some (v, u')) ∧
      (∃ u, memRead (0x3001#16 + signedField 1#9) (cpu 0x3001#16 [] 0b000#3 [(0x3002#16, 0xFE04#16)] [])
          = some (0xFE04#16, u) ∧ memRead 0xFE04#16 u = none) ∧
      memRead (0xFE03#16 + signedField 0#9) (cpu 0xFE03#16 [] 0b000#3 [] []) = none := ⟨⟨_, rfl, _, _, rfl⟩, ⟨_, rfl, rfl⟩, by decide⟩

theorem witness_StiStoresThroughThePointer :
    (∃ u, memRead (0x3001#16 + signedField 0#9) (cpu 0x3001#16 [] 0b000#3 [(0x3001#16, 0xFE01#16)] [])
        = some (0xFE01#16, u)) ∧
      memRead (0xFE03#16 + signedField 0#9) (cpu 0xFE03#16 [] 0b000#3 [] []) = none := ⟨⟨_, rfl⟩, by decide⟩

theorem witness_BrMovesPcWhenMaskMeetsCond :
    (0b010#3 &&& 0b010#3 : BitVec 3) ≠ 0b000#3 ∧ (0b111#3 &&& 0b000#3 : BitVec 3) = 0b000#3 ∧
      (0b101#3 &&& 0b010#3 : BitVec 3) = 0b000#3 ∧ (0b101#3 : BitVec 3) ≠ 0b111#3 := by decide

theorem witness_BrIsTakenExactlyOnTheNamedFlags :
    condLegal (cpu 0x3001#16 [] 0b100#3 [] []) ∧ (5#9 : BitVec 9) ≠ 0#9 ∧
      ∃ t, exec (.br (BitVec.ofBool true ++ BitVec.ofBool false ++ BitVec.ofBool false) 5#9)
        (cpu 0x3001#16 [] 0b100#3 [] []) = .next t := ⟨by decide, by decide, _, rfl⟩

theorem witness_JsrrLinksBeforeReadingTheBase : (4 : Reg) ≠ 7 ∧ (7 : Reg) = 7 := by decide

theorem witness_UndefinedVectorIsFatal :
    (0x1F#8).toNat < 0x20 ∧ 0x25 < (0x26#8).toNat ∧ 0x25 < (0xFF#8).toNat := by decide

/-- IN has the same hypotheses. -/
theorem witness_GetcReadsOneKeyOrHolds :
    pendingNow (cpu 0x3001#16 [] 0b000#3 [] [0xFF#8, 0x61#8]) = [0xFF#8, 0x61#8] ∧
      pendingNow (cpu 0x3001#16 [] 0b000#3 [] []) = [] := by decide

theorem witness_InPromptsEchoesAndReadsOneKey :
    pendingNow (cpu 0x3001#16 [] 0b000#3 [] [0x00#8]) = [0x00#8] ∧
      pendingNow (cpu 0x3001#16 [] 0b000#3 [] []) = [] := by decide

theorem witness_HoldEndsOnlyWithAKey :
    (waiting .inp [[]]).run = .running ∧ (waiting .inp [[]]).hold = some .inp ∧
      pendingNow (waiting .inp [[]]) = [] ∧ pendingNow (waiting .inp [[0x61#8]]) = [0x61#8] ∧
      (waiting .getc [[0x61#8]]).hold = some .getc := by decide

theorem witness_PutsEmitsWordsUpToTheZeroWord :
    ((cpu 0x3001#16 [(0, 0xFDFE#16)] 0b000#3 [(0xFDFE#16, 0x0100#16)] []).reg 0).toNat + 1 < 0xFE00 ∧
      (∀ i < 1, (cpu 0x3001#16 [(0, 0xFDFE#16)] 0b000#3 [(0xFDFE#16, 0x0100#16)] []).word
        (0xFDFE#16 + BitVec.ofNat 16 i) ≠ 0#16) ∧
      (cpu 0x3001#16 [(0, 0xFDFE#16)] 0b000#3 [(0xFDFE#16, 0x0100#16)] []).word 0xFDFF#16 = 0#16 := by decide

theorem witness_PutsFollowsItsLoop :
    memRead 0xFE01#16 (cpu 0x3001#16 [] 0b000#3 [] []) = none ∧
      (∃ u, memRead 0x4000#16 (cpu 0x3001#16 [] 0b000#3 [] []) = some (0x0000#16, u)) ∧
      ∃ u, memRead 0xFE00#16 (cpu 0x3001#16 [] 0b000#3 [] [0x61#8]) = some (0x8000#16, u) := ⟨by decide, ⟨_, rfl⟩, ⟨_, rfl⟩⟩

theorem witness_PutsStopsOrFaultsAtTheDevicePage :
    ((cpu 0x3001#16 [(0, 0xFDFF#16)] 0b000#3 [(0xFDFF#16, 0x0041#16)] []).reg 0).toNat + 1 = 0xFE00 ∧
      (∀ i < 1, (cpu 0x3001#16 [(0, 0xFDFF#16)] 0b000#3 [(0xFDFF#16, 0x0041#16)] []).word
        (0xFDFF#16 + BitVec.ofNat 16 i) ≠ 0#16) ∧
      pendingNow (cpu 0x3001#16 [(0, 0xFDFF#16)] 0b000#3 [(0xFDFF#16, 0x0041#16)] []) = [] ∧
      pendingNow (cpu 0x3001#16 [(0, 0xFDFF#16)] 0b000#3 [(0xFDFF#16, 0x0041#16)] [0x7A#8]) ≠ [] := by decide

theorem witness_PutspEmitsPackedBytesUpToTheZeroByte :
    (0x4000#16).toNat + 1 < 0xFE00 ∧
      (∀ c ∈ packedBytes (cpu 0x3001#16 [] 0b000#3 [(0x4000#16, 0x6548#16)] []) 0x4000#16 1, c ≠ 0#8) ∧
      ((cpu 0x3001#16 [] 0b000#3 [(0x4000#16, 0x6548#16), (0x4001#16, 0x4100#16)] []).word
        0x4001#16).extractLsb' 0 8 = 0#8 ∧
      ((cpu 0x3001#16 [] 0b000#3 [(0x4000#16, 0x6548#16), (0x4001#16, 0x006C#16)] []).word
        0x4001#16).extractLsb' 0 8 ≠ 0#8 ∧
      ((cpu 0x3001#16 [] 0b000#3 [(0x4000#16, 0x6548#16), (0x4001#16, 0x006C#16)] []).word
        0x4001#16).extractLsb' 8 8 = 0#8 := by decide

theorem witness_PutspFollowsItsLoop :
    memRead 0xFE03#16 (cpu 0x3001#16 [] 0b000#3 [] []) = none ∧
      (∃ u, memRead 0x4000#16 (cpu 0x3001#16 [] 0b000#3 [(0x4000#16, 0x4100#16)] [])
        = some ((0x41#8 ++ 0x00#8 : Word), u)) ∧
      (∃ u, memRead 0x4000#16 (cpu 0x3001#16 [] 0b000#3 [(0x4000#16, 0x0041#16)] [])
        = some ((0x00#8 ++ 0x41#8 : Word), u)) ∧
      ∃ u, memRead 0x4000#16 (cpu 0x3001#16 [] 0b000#3 [(0x4000#16, 0x6548#16)] [])
        = some ((0x65#8 ++ 0x48#8 : Word), u) := ⟨by decide, ⟨_, rfl⟩, ⟨_, rfl⟩, ⟨_, rfl⟩⟩

theorem witness_OnlyTheNamedRegistersAreWritten :
    (∃ t, exec (.addReg 1 2 3) (cpu 0x3001#16 [(2, 5#16)] 0b000#3 [] []) = .next t) ∧
      (2 : Reg) ∉ writtenRegs (.addReg 1 2 3) ∧ (0 : Reg) ∉ writtenRegs (.jsr 0#11) := ⟨⟨_, rfl⟩, by decide, by decide⟩

theorem witness_OnlyFlagInstructionsWriteCond :
    (∃ t, exec (.st 1 0#9) (cpu 0x3001#16 [] 0b001#3 [] []) = .next t) ∧ writesCond (.st 1 0#9) = false ∧
      (waiting .getc [[0x61#8]]).hold ≠ none ∧ ∃ t, step (waiting .getc [[0x61#8]]) = .next t := ⟨⟨_, rfl⟩, by decide, by decide, _, rfl⟩

theorem witness_OnlyControlTransfersWritePc :
    (∃ t, exec .halt (cpu 0x3001#16 [] 0b000#3 [] []) = .next t) ∧ transfersControl .halt = false ∧
      Ready (cpu 0x3000#16 [] 0b000#3 [(0x3000#16, 0xF025#16)] []) ∧
      (∃ u, memRead 0x3000#16 (cpu 0x3000#16 [] 0b000#3 [(0x3000#16, 0xF025#16)] []) = some (0xF025#16, u)) ∧
      transfersControl (decode 0xF025#16) = false := ⟨⟨_, rfl⟩, by decide, ⟨rfl, rfl⟩, ⟨_, rfl⟩, by decide⟩

theorem witness_OnlyStoresWriteMemoryButTheKeyCache :
    (∃ t, exec (.ldr 0 1 0#6) (cpu 0x3001#16 [(1, 0xFE02#16)] 0b000#3 [] [0x61#8]) = .next t) ∧
      isStore (.ldr 0 1 0#6) = false := ⟨⟨_, rfl⟩, by decide⟩

theorem witness_OutputHistoryOnlyGrows :
    (∃ t, step (cpu 0x3000#16 [] 0b000#3 [(0x3000#16, 0xF021#16)] []) = .next t) ∧
      (∃ t, exec .getc (cpu 0x3001#16 [] 0b000#3 [] []) = .next t) ∧ emitsOutput .getc = false := ⟨⟨_, rfl⟩, ⟨_, rfl⟩, by decide⟩

theorem witness_KeysAreConsumedInOrder :
    ∃ t, step (cpu 0x3000#16 [] 0b000#3 [(0x3000#16, 0xF020#16)] [0x61#8, 0x62#8]) = .next t := ⟨_, rfl⟩

theorem witness_RunMovesOnlyAsStated :
    (∃ t, step State.reset = .next t) ∧
      ∃ t, step (cpu 0x3000#16 [] 0b000#3 [(0x3000#16, 0xF025#16)] []) = .next t ∧
        (cpu 0x3000#16 [] 0b000#3 [(0x3000#16, 0xF025#16)] []).run = .running ∧ t.run = .halted := ⟨⟨_, rfl⟩, _, rfl, rfl, rfl⟩

theorem witness_HaltedAndFaultedAreNeverLeft :
    (State.reset.setRun .halted).run = .halted ∧
      (State.reset.raise .loadError).run = .faulted .loadError := by decide

theorem witness_RunningBlockAlwaysHasANextState :
    (cpu 0x3000#16 [] 0b000#3 [] []).run = .running := by decide

theorem witness_StepKeepsCondLegal :
    condLegal (cpu 0x3000#16 [] 0b001#3 [] []) ∧ (cpu 0x3000#16 [] 0b001#3 [] []).cond ≠ 0b000#3 ∧
      ∃ t, step (cpu 0x3000#16 [] 0b001#3 [] []) = .next t := ⟨by decide, by decide, _, rfl⟩

theorem witness_StepKeepsMemoryCanonical :
    (cpu 0x3000#16 [] 0b000#3 [(0x3000#16, 0x3203#16), (0xFFFF#16, 0x0100#16)] []).mem.wf ∧
      ∃ t, step (cpu 0x3000#16 [] 0b000#3 [(0x3000#16, 0x3203#16), (0xFFFF#16, 0x0100#16)] []) = .next t := ⟨by decide, _, rfl⟩

theorem witness_StepKeepsHoldOnlyWhileRunning :
    holdOnlyRunning (waiting .getc [[]]) ∧ ∃ t, step (waiting .getc [[]]) = .next t := ⟨fun _ => rfl, _, rfl⟩

theorem witness_UnreadableWordsAreNeverObserved :
    SameToProgram (cpu 0x3000#16 [] 0b000#3 [] []) (cpu 0x3000#16 [] 0b000#3 [(0xFE01#16, 0x1234#16)] []) ∧
      cpu 0x3000#16 [] 0b000#3 [] [] ≠ cpu 0x3000#16 [] 0b000#3 [(0xFE01#16, 0x1234#16)] [] := by
  refine ⟨⟨rfl, fun a h => ?_⟩, by decide⟩
  have hne : a ≠ 0xFE01#16 := by rintro rfl; revert h; unfold readableWord; decide
  exact State.word_setWord_ne _ _ hne

end Sys2Proof.Tests
end

section
/-! PROOFS. Sign extension as arithmetic on natural numbers (00_scope.md R9). -/

namespace Sys2Proof.Machine

/-- R9 for a field of its own width: a set sign bit adds the weights of bits N to 15. -/
theorem toNat_sext {n : Nat} (t : BitVec n) (hn : n ≤ 16) :
    (sext t).toNat =
      if t.toNat < 2 ^ (n - 1) then t.toNat else t.toNat + (0x10000 - 2 ^ n) := by
  have hfit : (t.setWidth 16).toNat = t.toNat := BitVec.toNat_setWidth_of_le hn
  rw [sext, BitVec.toNat_signExtend, hfit, BitVec.msb_eq_decide]
  by_cases hsign : t.toNat < 2 ^ (n - 1)
  · simp [hsign]
  · simp [hsign, Nat.not_lt.mp hsign]

/-- Settles O5: `sext_N` of a word is R9 for its low N bits, whose value is the word modulo `2 ^ N`. -/
theorem signExtensionReplicatesTheSignBit : Obligations.SignExtensionReplicatesTheSignBit := by
  intro n v _ hn
  rw [sextLow, toNat_sext _ hn, BitVec.toNat_setWidth]

end Sys2Proof.Machine
end

section
/-! PROOFS. What an instruction can do, read from the tables of R23, R26, R31, R61 and R160: a predicate
that the updates allowed to an instruction keep comes through it. -/

namespace Sys2Proof.Machine

/-- The causes that a step may record: not the loader's, and not the unreachable one (R22, R196). -/
def Cause.RaisedByStep (c : Cause) : Prop := c ≠ .loadError ∧ ∀ n, c ≠ .invalidRegisterIndex n

theorem unmapped_raisedByStep (a : Word) : (Cause.unimplementedMemoryMap a).RaisedByStep :=
  ⟨nofun, nofun⟩

/-- The updates that the tables allow the instruction `i` keep `P`; the reads of any instruction may let
keys arrive and store one in the KBDR cache. A field left out is an update that does not touch what `P`
speaks of. -/
structure KeptByUpdatesOf (i : Instr) (P : State → Prop) : Prop where
  setReg : ∀ r ∈ writtenRegs i, ∀ s v, P s → P (s.setReg r v) := by intros; assumption
  setcc : writesCond i = true → ∀ s v, P s → P (s.setcc v) := by intros; assumption
  setPc : transfersControl i = true → ∀ s v, P s → P (s.setPc v) := by intros; assumption
  setWord : isStore i = true → ∀ s a v, P s → P (s.setWord a v) := by intros; assumption
  emitAll : emitsOutput i = true → ∀ s cs, P s → P (s.emitAll cs) := by intros; assumption
  halt : i = .halt → ∀ s, P s → P (s.setRun .halted) := by intros; assumption
  raise : ∀ s c, c.RaisedByStep → P s → P (s.raise c) := by intros; assumption
  setHold : ∀ (s : State) h, P s → P { s with hold := h } := by intros; assumption
  setKeys : ∀ (s : State) ks arr, P s → P { s with keys := ks, arrivals := arr } := by
    intros; assumption
  setCache : ∀ s v, P s → P (s.setWord 0xFE02 v) := by intros; assumption

/-- The instruction whose service waits in a hold. -/
def Hold.service : Hold → Instr
  | .getc => .getc
  | .inp => .inp

section
variable {i : Instr} {P : State → Prop}

theorem KeptByUpdatesOf.memRead (k : KeptByUpdatesOf i P) {a v : Word} {s t : State} (hs : P s)
    (h : memRead a s = some (v, t)) : P t := by
  rcases memRead_cases h with ⟨-, -, rfl⟩ | ⟨-, -, rfl⟩ | ⟨-, b, rest, -, -, rfl⟩ | ⟨-, -, -, rfl⟩
  · exact hs
  · rw [land_eq]; exact k.setKeys _ _ _ hs
  · rw [land_eq]; exact k.setCache _ _ (k.setKeys s _ _ hs)
  · rw [land_eq]; exact k.setKeys _ _ _ hs

theorem KeptByUpdatesOf.raiseUnmapped (k : KeptByUpdatesOf i P) {a : Word} {s : State} (hs : P s) :
    P (s.raise (.unimplementedMemoryMap a)) :=
  k.raise s _ (unmapped_raisedByStep a) hs

theorem KeptByUpdatesOf.withRead (k : KeptByUpdatesOf i P) {a : Word} {s : State}
    {f : Word → State → State} (hs : P s) (hf : ∀ v t, P t → P (f v t)) : P (withRead a s f) :=
  withRead_keeps hs (fun _ _ _ _ h e => k.memRead h e) (fun _ _ => k.raiseUnmapped)
    fun v t _ ht => hf v t ht

theorem KeptByUpdatesOf.emit (k : KeptByUpdatesOf i P) (hi : emitsOutput i = true) {s : State} (c : Byte)
    (hs : P s) : P (s.emit c) := k.emitAll hi s [c] hs

theorem KeptByUpdatesOf.setWithCond (k : KeptByUpdatesOf i P) {r : Reg} (hr : r ∈ writtenRegs i)
    (hc : writesCond i = true) {s : State} (v : Word) (hs : P s) : P (s.setWithCond r v) :=
  k.setcc hc _ v (k.setReg r hr s v hs)

theorem KeptByUpdatesOf.link (k : KeptByUpdatesOf i P) (h7 : 7 ∈ writtenRegs i) {s : State} (hs : P s) :
    P s.link := k.setReg 7 h7 s _ hs

/-- The services that may set cond do so only where the parameter says it. -/
theorem KeptByUpdatesOf.setccIf (k : KeptByUpdatesOf i P) (hi : writesCond i = Config.pTrapInSetsCond)
    {s : State} (v : Word) (hs : P s) : P (s.setccIf Config.pTrapInSetsCond v) := by
  cases hp : Config.pTrapInSetsCond with
  | false => exact hs
  | true => exact k.setcc (hi.trans hp) s v hs

end

theorem KeptByUpdatesOf.deliverKey {P : State → Prop} {h : Hold} (k : KeptByUpdatesOf h.service P)
    {s : State} (b : Byte) (hs : P s) : P (deliverKey h b s) := by
  have hs' := k.setHold s none hs
  cases h with
  | getc => exact k.setccIf rfl _ (k.setReg 0 (by decide) _ _ hs')
  | inp => exact k.setccIf rfl _ (k.setReg 0 (by decide) _ _ (k.emit rfl b hs'))

theorem KeptByUpdatesOf.awaitKey {P : State → Prop} {h : Hold} (k : KeptByUpdatesOf h.service P)
    {s : State} (hs : P s) : P (awaitKey h s) := by
  cases hp : pendingNow s with
  | nil =>
    rw [awaitKey_of_none hp]
    exact k.setHold _ _ (k.setKeys s [] s.arrivals.advance hs)
  | cons b rest =>
    rw [awaitKey_of_pending hp]
    exact k.deliverKey b (k.setKeys s _ _ hs)

/-- A predicate that the updates allowed to an instruction keep comes through the instruction. The cases
left to the end are the operate instructions and LEA, which write DR and cond alone. -/
theorem KeptByUpdatesOf.exec {i : Instr} {P : State → Prop} (k : KeptByUpdatesOf i P) {s t : State}
    (hs : P s) (h : exec i s = .next t) : P t := by
  have hread : ∀ a v s t, P s → Machine.memRead a s = some (v, t) → P t :=
    fun _ _ _ _ h e => k.memRead h e
  have hraise : ∀ a s, P s → P (s.raise (.unimplementedMemoryMap a)) := fun _ _ => k.raiseUnmapped
  cases i <;> cases h
  case br nzp off =>
    cases brTaken nzp s.cond with
    | true => exact k.setPc rfl _ _ hs
    | false => exact hs
  case ld => exact k.withRead hs fun v _ ht => k.setWithCond (.head _) rfl v ht
  case ldr => exact k.withRead hs fun v _ ht => k.setWithCond (.head _) rfl v ht
  case ldi =>
    exact k.withRead hs fun _ _ ht => k.withRead ht fun v _ hu => k.setWithCond (.head _) rfl v hu
  case st => exact k.setWord rfl _ _ _ hs
  case str => exact k.setWord rfl _ _ _ hs
  case sti => exact k.withRead hs fun _ _ ht => k.setWord rfl _ _ _ ht
  case jsr => exact k.setPc rfl _ _ (k.link (.head _) hs)
  case jsrr => exact k.setPc rfl _ _ (k.link (.head _) hs)
  case jmp => exact k.setPc rfl _ _ hs
  case rti => exact k.raise _ _ ⟨nofun, nofun⟩ hs
  case res => exact k.raise _ _ ⟨nofun, nofun⟩ hs
  case trap => exact k.raise _ _ ⟨nofun, nofun⟩ (k.link (.head _) hs)
  case getc => exact KeptByUpdatesOf.awaitKey (h := .getc) k (k.link (.head _) hs)
  case out => exact k.emit rfl _ (k.link (.head _) hs)
  case puts => exact putsWalk_keeps hread hraise (fun c _ => k.emit rfl c) _ _ _ (k.link (.head _) hs)
  case inp => exact KeptByUpdatesOf.awaitKey (h := .inp) k (k.emitAll rfl _ _ (k.link (.head _) hs))
  case putsp => exact putspWalk_keeps hread hraise (fun c _ => k.emit rfl c) _ _ _ (k.link (.head _) hs)
  case halt => exact k.halt rfl _ (k.emitAll rfl _ _ (k.link (.head _) hs))
  all_goals exact k.setWithCond (.head _) rfl _ hs

end Sys2Proof.Machine
end

section
/-! PROOFS. How run moves and what a step is in each run state (10_state.md R35 to R38, 60_exceptions.md
R182, R196). -/

namespace Sys2Proof.Machine

theorem step_of_halted {s : State} (h : s.run = .halted) : step s = .next s := by
  rw [step, h]

theorem step_of_faulted {s : State} {c : Cause} (h : s.run = .faulted c) :
    step s = .fault (.fatal c) := by
  rw [step, h]

theorem step_of_ready {s : State} (h : Ready s) : step s = cycle s := by
  rw [step, h.1, runStep, h.2]

/-- A cycle whose fetch does not fault runs the decoded instruction one past its address (R37). -/
theorem step_of_fetch {s u : State} {w : Word} (hs : Ready s) (h : memRead s.pc s = some (w, u)) :
    step s = exec (decode w) (u.setPc (s.pc + 1#16)) := by
  rw [step_of_ready hs, cycle, h, ← (advance_of_fetch h).2]

/-- A cycle whose fetch faults raises the fatal error of pc, before pc changes (R37, R52). -/
theorem step_of_fetch_fault {s : State} (hs : Ready s) (h : memRead s.pc s = none) :
    step s = .next (s.raise (.unimplementedMemoryMap s.pc)) := by
  rw [step_of_ready hs, cycle, h]

theorem awaitKey_run (h : Hold) (s : State) : (awaitKey h s).run = s.run := by
  cases hp : pendingNow s with
  | nil => rw [awaitKey_of_none hp]
  | cons b rest => rw [awaitKey_of_pending hp]; cases h <;> rfl

/-- What run may be after the instruction `i` of a RUNNING block. -/
def RunAfter (i : Instr) (t : State) : Prop :=
  t.run = .running ∨ (i = .halt ∧ t.run = .halted) ∨ ∃ c : Cause, c.RaisedByStep ∧ t.run = .faulted c

theorem runAfter_keptByUpdatesOf (i : Instr) : KeptByUpdatesOf i (RunAfter i) where
  halt hi _ _ := .inr (.inl ⟨hi, rfl⟩)
  raise _ c hc _ := .inr (.inr ⟨c, hc, rfl⟩)

/-- Where a step leads, by where it comes from; a RUNNING block halts only in a cycle that
fetched HALT (R35). -/
theorem step_run_cases {s t : State} (h : step s = .next t) :
    (s.run = .loaded ∧ t.run = .running) ∨
    (s.run = .running ∧ t.run = .running) ∨
    (s.run = .running ∧ t.run = .halted ∧ s.hold = none ∧
      ∃ w u, memRead s.pc s = some (w, u) ∧ decode w = .halt) ∨
    (s.run = .running ∧ ∃ c : Cause, c.RaisedByStep ∧ t.run = .faulted c) ∨
    (s.run = .halted ∧ t = s) := by
  rcases step_cases h with ⟨hr, rfl⟩ | ⟨hr, hd, -, rfl⟩ | ⟨hr, hh, w, u, hu, he⟩ | ⟨hr, -, -, rfl⟩ | ⟨hr, rfl⟩
  · exact .inl ⟨hr, rfl⟩
  · exact .inr (.inl ⟨hr, (awaitKey_run hd s).trans hr⟩)
  · have hu_run : u.advance.run = .running := by
      rw [(advance_of_fetch hu).2, State.setPc_run, memRead_frame hu]; exact hr
    rcases (runAfter_keptByUpdatesOf _).exec (.inl hu_run) he with ht | ⟨hw, ht⟩ | ht
    · exact .inr (.inl ⟨hr, ht⟩)
    · exact .inr (.inr (.inl ⟨hr, ht, hh, w, u, hu, hw⟩))
    · exact .inr (.inr (.inr (.inl ⟨hr, ht⟩)))
  · exact .inr (.inr (.inr (.inl ⟨hr, _, unmapped_raisedByStep _, rfl⟩)))
  · exact .inr (.inr (.inr (.inr ⟨hr, rfl⟩)))

theorem core_run_succ_of_next {M : Host.Core} {s t : M.State} (h : M.step s = .next t) (k : Nat) :
    M.run (k + 1) s = M.run k t := by
  simp [Host.Core.run, h]

theorem core_run_succ_of_fault {M : Host.Core} {s : M.State} {f : M.Fault} (h : M.step s = .fault f)
    (k : Nat) : M.run (k + 1) s = .fault f := by
  simp [Host.Core.run, h]

/-- Settles O12: a fetch that succeeds is never from 0xFFFF, so the advance is the increment. -/
theorem stepRunsTheDecodedInstruction : Obligations.StepRunsTheDecodedInstruction := by
  intro s hs
  refine ⟨fun w u h => ⟨(advance_of_fetch h).1, step_of_fetch hs h⟩, fun h => ?_⟩
  exact ⟨_, step_of_fetch_fault hs h, rfl, rfl, rfl⟩

/-- Settles O54, from the five moves a step can make. -/
theorem runMovesOnlyAsStated : Obligations.RunMovesOnlyAsStated := by
  intro s t h
  rcases step_run_cases h with ⟨hr, ht⟩ | ⟨hr, ht⟩ | ⟨hr, ht, hh, hw⟩ | ⟨hr, c, ⟨hload, hidx⟩, ht⟩ | ⟨hr, rfl⟩
  · simp [hr, ht]
  · simp [hr, ht]
  · exact ⟨.inr (.inl hr), by simp [ht], fun _ _ => ⟨hh, hw⟩, by simp [ht], by simp [ht]⟩
  · simp [hr, ht, hload, hidx]
  · simp [hr]

/-- Settles O55, by induction on the number of steps. -/
theorem haltedAndFaultedAreNeverLeft : Obligations.HaltedAndFaultedAreNeverLeft := by
  intro k s
  constructor
  · intro hr
    induction k with
    | zero => rfl
    | succ k ih => exact (core_run_succ_of_next (step_of_halted hr) k).trans ih
  · exact fun c hr => core_run_succ_of_fault (step_of_faulted hr) k

end Sys2Proof.Machine
end

section
/-! PROOFS. Which instructions write the general registers, cond and pc (10_state.md R23, R26, R31, R33). -/

namespace Sys2Proof.Machine

theorem reg_keptByUpdatesOf {i : Instr} {r : Reg} (hr : r ∉ writtenRegs i) (v : Word) :
    KeptByUpdatesOf i fun u => u.reg r = v where
  setReg q hq s w h := (State.reg_setReg_ne s w (ne_of_mem_of_not_mem hq hr).symm).trans h

theorem cond_keptByUpdatesOf {i : Instr} (hi : writesCond i = false) (c : BitVec 3) :
    KeptByUpdatesOf i fun u => u.cond = c where
  setcc hw := absurd hw (by simp [hi])

theorem pc_keptByUpdatesOf {i : Instr} (hi : transfersControl i = false) (v : Word) :
    KeptByUpdatesOf i fun u => u.pc = v where
  setPc hw := absurd hw (by simp [hi])

theorem exec_pc {i : Instr} {s t : State} (h : exec i s = .next t) (hi : transfersControl i = false) :
    t.pc = s.pc := (pc_keptByUpdatesOf hi s.pc).exec rfl h

theorem Hold.writesCond_service (h : Hold) : writesCond h.service = Config.pTrapInSetsCond := by
  cases h <;> rfl

/-- Exactly one flag: POS, ZRO or NEG (R29). A cond is legal if it is 0b000 or one flag. -/
def IsFlag (c : BitVec 3) : Prop := c = 0b001#3 ∨ c = 0b010#3 ∨ c = 0b100#3

theorem condLegal_iff {s : State} : condLegal s ↔ s.cond = 0b000#3 ∨ IsFlag s.cond := .rfl

theorem condOf_isFlag (v : Word) : IsFlag (condOf v) := by
  unfold condOf
  split
  · exact .inl rfl
  · split
    · exact .inr (.inr rfl)
    · exact .inr (.inl rfl)

theorem IsFlag.ne_zero {c : BitVec 3} (h : IsFlag c) : c ≠ 0b000#3 := by
  rcases h with rfl | rfl | rfl <;> decide

/-- What every value of `setcc` meets, cond goes on meeting. -/
theorem cond_keptByUpdates (Q : BitVec 3 → Prop) (hQ : ∀ v, Q (condOf v)) :
    KeptByUpdates fun u => Q u.cond where
  setReg _ _ _ h := h
  setcc _ v _ := hQ v
  setPc _ _ h := h
  setWord _ _ _ h := h
  setRun _ _ h := h
  emitAll _ _ h := h
  setHold _ _ h := h
  setKeys _ _ _ h := h

/-- Settles O57: a legal cond and a cond with a flag set both come through every update, since `setcc`
always sets one flag. -/
theorem stepKeepsCondLegal : Obligations.StepKeepsCondLegal := by
  intro s t hs h
  have hlegal := cond_keptByUpdates (fun c => c = 0b000#3 ∨ IsFlag c) fun v => .inr (condOf_isFlag v)
  have hset := cond_keptByUpdates (· ≠ 0b000#3) fun v => (condOf_isFlag v).ne_zero
  exact ⟨condLegal_iff.mpr (hlegal.step (condLegal_iff.mp hs) h), fun hne => hset.step hne h⟩

/-- Settles O48: no update the tables allow the instruction writes a register they do not name. -/
theorem onlyTheNamedRegistersAreWritten : Obligations.OnlyTheNamedRegistersAreWritten :=
  fun _ s _ r h hr => (reg_keptByUpdatesOf hr (s.reg r)).exec rfl h

/-- Settles O49: a step in a hold is a poll, and its service may set cond only where the parameter says
it. -/
theorem onlyFlagInstructionsWriteCond : Obligations.OnlyFlagInstructionsWriteCond := by
  refine ⟨fun i s t h hi => (cond_keptByUpdatesOf hi s.cond).exec rfl h, fun s t hold h => ?_⟩
  rcases step_cases h with ⟨-, rfl⟩ | ⟨-, hd, -, rfl⟩ | ⟨-, hn, -⟩ | ⟨-, hn, -⟩ | ⟨-, rfl⟩
  · exact .inl rfl
  · cases hp : Config.pTrapInSetsCond with
    | false => exact .inl ((cond_keptByUpdatesOf (hd.writesCond_service.trans hp) s.cond).awaitKey rfl)
    | true => exact .inr rfl
  · exact absurd hn hold
  · exact absurd hn hold
  · exact .inl rfl

/-- Settles O50: a cycle hands `exec` a pc already one past the fetch, and the instruction keeps it. -/
theorem onlyControlTransfersWritePc : Obligations.OnlyControlTransfersWritePc := by
  refine ⟨fun i s t h hi => exec_pc h hi, fun s u w hs hu hi => ?_⟩
  obtain ⟨t, ht⟩ := exec_next (decode w) (u.setPc (s.pc + 1#16))
  exact ⟨t, (step_of_fetch hs hu).trans ht, exec_pc ht hi⟩

end Sys2Proof.Machine
end

section
/-! PROOFS. What creation and the loader leave (10_state.md R40, 20_memory.md R57). -/

namespace Sys2Proof.Machine

theorem reg_reset (r : Reg) : State.reset.reg r = 0x0000#16 := by
  simp [State.reg, State.reset]

theorem word_reset (a : Word) : State.reset.word a = 0x0000#16 := by
  simp [State.word, State.reset, cellAt]

/-- The loader writes memory and the run state alone (R211, R212, R213). -/
theorem load_frame (image : Option (List Byte)) (s : State) :
    s.load image = { s with mem := (s.load image).mem, run := (s.load image).run } := by
  have hstore (a : Word) (ws : List Word) : s.storeWords a ws =
      { s with mem := (s.storeWords a ws).mem, run := (s.storeWords a ws).run } := by
    rw [storeWords_frame]
  unfold State.load
  split
  · rfl
  · split
    · split
      · exact hstore _ _
      · rfl
    · rfl

/-- Settles O6: the values are those of `State.reset`, and the loader leaves pc alone. -/
theorem resetLeavesTheStatedValues : Obligations.ResetLeavesTheStatedValues := by
  refine ⟨reg_reset, rfl, rfl, word_reset, rfl, rfl, fun image keys arrivals => ?_⟩
  rw [State.launch, load_frame]; rfl

/-- Settles O7: memory is the empty list of cells, cond is 0b000 and nothing holds. -/
theorem resetMeetsTheInvariants : Obligations.ResetMeetsTheInvariants :=
  ⟨wf_reset, .inl rfl, fun h => absurd rfl h⟩

end Sys2Proof.Machine
end

section
/-! PROOFS. The address decoder, the keyboard registers behind it, and who writes memory (20_memory.md R50
to R55, R61, R69). -/

namespace Sys2Proof.Machine

/-! ## Reads -/

theorem memRead_below_page {a : Word} (h : a.toNat < 0xFE00) (s : State) :
    memRead a s = some (s.word a, s) := if_pos h

theorem memRead_kbsr (s : State) : memRead 0xFE00 s = some (kbsrRead s) := rfl

theorem memRead_kbdr (s : State) : memRead 0xFE02 s = some (kbdrRead s) := rfl

theorem withRead_of_some {a v : Word} {s t : State} (h : memRead a s = some (v, t))
    (k : Word → State → State) : withRead a s k = k v t := by
  rw [withRead, h]

theorem withRead_of_none {a : Word} {s : State} (h : memRead a s = none) (k : Word → State → State) :
    withRead a s k = s.raise (.unimplementedMemoryMap a) := by
  rw [withRead, h]

/-- The addresses that no read reaches, as the obligation lists them. -/
theorem memRead_unmapped {a : Word} (h : a = 0xFE01#16 ∨ 0xFE03 ≤ a.toNat) (s : State) :
    memRead a s = none := by
  rw [memRead_eq_none]
  rcases h with rfl | h
  · decide
  · exact ⟨by omega, by rintro rfl; revert h; decide, by rintro rfl; revert h; decide⟩

/-- KBSR shows whether a key is pending; the arrivals before the read are its only effect (R54). -/
theorem kbsrRead_eq (s : State) :
    kbsrRead s = ((if pendingNow s = [] then 0x0000#16 else 0x8000#16), s.land) := by
  cases hp : pendingNow s <;> simp [kbsrRead, State.kbdCheck, land_eq, hp]

/-- KBDR with a key pending: the oldest one, cached (R55). -/
theorem kbdrRead_of_pending {s : State} {b : Byte} {rest : List Byte} (h : pendingNow s = b :: rest) :
    kbdrRead s =
      (b.setWidth 16, ({ s.land with keys := rest } : State).setWord 0xFE02#16 (b.setWidth 16)) := by
  rw [kbdrRead, kbdGet_of_pending h]

/-- KBDR with no key pending: the cached word (R55). -/
theorem kbdrRead_of_none {s : State} (h : pendingNow s = []) :
    kbdrRead s = (s.word 0xFE02#16, s.land) := by
  rw [kbdrRead, kbdGet_of_none h, land_eq]; rfl

/-- Settles O14: the three readable kinds of address, and the fatal error of the others. -/
theorem readDecoderFollowsTheAddressMap : Obligations.ReadDecoderFollowsTheAddressMap := by
  intro a s
  refine ⟨fun h => memRead_below_page h s, ?_, ?_, fun h k => withRead_of_none (memRead_unmapped h s) k⟩
  · rintro rfl; exact memRead_kbsr s
  · rintro rfl; exact memRead_kbdr s

/-- Settles O15: a status read lets the due keys arrive and does nothing else. -/
theorem statusReadPeeksAtTheKeyboard : Obligations.StatusReadPeeksAtTheKeyboard :=
  fun s => ⟨by rw [kbsrRead_eq], by rw [kbsrRead_eq, land_eq]⟩

/-- Settles O16: a byte zero-extended keeps its value, and the cache is the one word written. -/
theorem dataReadTakesKeyOrReturnsCache : Obligations.DataReadTakesKeyOrReturnsCache := by
  refine fun s => ⟨fun hp => by rw [kbdrRead_of_none hp, land_eq, hp], fun b rest hp => ?_⟩
  rw [kbdrRead_of_pending hp, land_eq]
  refine ⟨BitVec.toNat_setWidth_of_le (by decide), State.word_setWord_same _ _ _, fun a ha => ?_, rfl⟩
  exact State.word_setWord_ne _ _ ha

/-! ## Writes -/

theorem mem_wf_keptByUpdates : KeptByUpdates fun u => u.mem.wf where
  setReg _ _ _ h := h
  setcc _ _ h := h
  setPc _ _ h := h
  setWord _ a v h := State.wf_setWord h a v
  setRun _ _ h := h
  emitAll _ _ h := h
  setHold _ _ h := h
  setKeys _ _ _ h := h

/-- Settles O58: `setWord` is the one update that touches memory, and it keeps the canonical form. -/
theorem stepKeepsMemoryCanonical : Obligations.StepKeepsMemoryCanonical :=
  fun _ _ hs h => mem_wf_keptByUpdates.step hs h

theorem word_keptByUpdatesOf {i : Instr} (hi : isStore i = false) {a : Word} (ha : a ≠ 0xFE02#16)
    (v : Word) : KeptByUpdatesOf i fun u => u.word a = v where
  setWord hw := absurd hw (by simp [hi])
  setCache s w h := (State.word_setWord_ne s w ha).trans h

/-- Settles O51: of the updates allowed to an instruction that is no store, only the one of the KBDR
cache writes memory. -/
theorem onlyStoresWriteMemoryButTheKeyCache : Obligations.OnlyStoresWriteMemoryButTheKeyCache :=
  fun _ s _ h hi a ha => (word_keptByUpdatesOf hi ha (s.word a)).exec rfl h

/-! ## A store, then a fetch -/

theorem step_of_setWord_at_pc {s : State} (hs : Ready s) (hpc : s.pc.toNat < 0xFE00) (w : Word) :
    step (s.setWord s.pc w) = exec (decode w) ((s.setWord s.pc w).setPc (s.pc + 1#16)) := by
  have hfetch : memRead s.pc (s.setWord s.pc w) = some (w, s.setWord s.pc w) := by
    rw [memRead_below_page hpc, State.word_setWord_same]
  exact step_of_fetch (s := s.setWord s.pc w) hs hfetch

theorem pcRel_zero (s : State) : pcRel 0#9 s = s.pc := BitVec.add_zero s.pc

/-- Settles O13: both stores are a write of the register's word at pc, which the fetch then reads. -/
theorem storeIsSeenByTheNextFetch : Obligations.StoreIsSeenByTheNextFetch := by
  intro s t sr base off hs hpc
  constructor
  · intro h
    cases h
    rw [memWrite, pcRel_zero]
    exact step_of_setWord_at_pc hs hpc (s.reg sr)
  · intro h hbase
    cases h
    have haddr : baseOff base off s = s.pc := hbase
    rw [memWrite, haddr]
    exact step_of_setWord_at_pc hs hpc (s.reg sr)

end Sys2Proof.Machine
end

section
/-! PROOFS. The order in which keys are consumed (20_memory.md R71, 60_exceptions.md R192). -/

namespace Sys2Proof.Machine

/-- From `s` to `t` some batches arrived behind the pending keys, and keys were taken from the front
alone. -/
def KeysInOrder (s t : State) : Prop := ∃ ks n, KeysTaken ks n s t

theorem KeysInOrder.of_kept {s t : State} (h : KeysKept s t) : KeysInOrder s t := ⟨[], 0, .of_kept h⟩

theorem KeysInOrder.trans {s t u : State} : KeysInOrder s t → KeysInOrder t u → KeysInOrder s u
  | ⟨_, _, h⟩, ⟨_, _, h'⟩ => ⟨_, _, h.trans h'⟩

/-- What follows `t` may leave the keyboard alone. -/
theorem KeysInOrder.then_kept {s t u : State} (h : KeysInOrder s t) (hk : KeysKept t u) :
    KeysInOrder s u := h.trans (.of_kept hk)

theorem KeysInOrder.memRead {r s t : State} {a v : Word} (hs : KeysInOrder r s)
    (h : memRead a s = some (v, t)) : KeysInOrder r t := hs.trans (memRead_keysTaken h)

theorem KeysInOrder.raise {r s : State} (hs : KeysInOrder r s) (c : Cause) : KeysInOrder r (s.raise c) :=
  hs.then_kept ⟨rfl, rfl⟩

theorem KeysInOrder.withRead {r s : State} {a : Word} {k : Word → State → State} (hs : KeysInOrder r s)
    (hk : ∀ v t, KeysInOrder r t → KeysInOrder r (k v t)) : KeysInOrder r (withRead a s k) :=
  withRead_keeps hs (fun _ _ _ _ h e => h.memRead e) (fun _ _ h => h.raise _) fun v t _ => hk v t

theorem awaitKey_keysInOrder (h : Hold) (s : State) : KeysInOrder s (awaitKey h s) := by
  cases hp : pendingNow s with
  | nil => exact ⟨_, _, awaitKey_keysTaken_of_none hp⟩
  | cons b rest => exact ⟨_, _, awaitKey_keysTaken_of_pending hp⟩

/-- The cases left to the end are the instructions that neither read memory nor wait for a key. -/
theorem exec_keysInOrder {i : Instr} {s t : State} (h : exec i s = .next t) : KeysInOrder s t := by
  have hrefl : KeysInOrder s s := .of_kept ⟨rfl, rfl⟩
  have hlink : KeysInOrder s s.link := .of_kept ⟨rfl, rfl⟩
  have hread : ∀ a v t u, KeysInOrder s t → memRead a t = some (v, u) → KeysInOrder s u :=
    fun _ _ _ _ h e => h.memRead e
  have hraise : ∀ a t, KeysInOrder s t → KeysInOrder s (t.raise (.unimplementedMemoryMap a)) :=
    fun _ _ h => h.raise _
  have hemit : ∀ c t, KeysInOrder s t → KeysInOrder s (t.emit c) := fun _ _ h => h.then_kept ⟨rfl, rfl⟩
  cases i <;> cases h
  case br nzp off => cases brTaken nzp s.cond <;> exact .of_kept ⟨rfl, rfl⟩
  case ld => exact hrefl.withRead fun _ _ ht => ht.then_kept ⟨rfl, rfl⟩
  case ldr => exact hrefl.withRead fun _ _ ht => ht.then_kept ⟨rfl, rfl⟩
  case ldi =>
    exact hrefl.withRead fun _ _ ht => ht.withRead fun _ _ hu => hu.then_kept ⟨rfl, rfl⟩
  case sti => exact hrefl.withRead fun _ _ ht => ht.then_kept ⟨rfl, rfl⟩
  case getc => exact hlink.trans (awaitKey_keysInOrder _ _)
  case inp => exact (hlink.then_kept ⟨rfl, rfl⟩).trans (awaitKey_keysInOrder _ _)
  case puts => exact putsWalk_keeps hread hraise hemit _ _ _ hlink
  case putsp => exact putspWalk_keeps hread hraise hemit _ _ _ hlink
  all_goals exact .of_kept ⟨rfl, rfl⟩

/-- Settles O53: the fetch, the instruction and a poll each take keys in order, and so does one after the
other. -/
theorem keysAreConsumedInOrder : Obligations.KeysAreConsumedInOrder := by
  intro s t h
  change KeysInOrder s t
  rcases step_cases h with ⟨-, rfl⟩ | ⟨-, hd, -, rfl⟩ | ⟨-, -, w, u, hu, he⟩ | ⟨-, -, -, rfl⟩ | ⟨-, rfl⟩
  · exact .of_kept ⟨rfl, rfl⟩
  · exact awaitKey_keysInOrder hd s
  · have hadvance : KeysKept u u.advance := by rw [(advance_of_fetch hu).2]; exact ⟨rfl, rfl⟩
    have hfetch : KeysInOrder s u := memRead_keysTaken hu
    exact (hfetch.then_kept hadvance).trans (exec_keysInOrder he)
  · exact .of_kept ⟨rfl, rfl⟩
  · exact .of_kept ⟨rfl, rfl⟩

end Sys2Proof.Machine
end

section
/-! PROOFS. The backing words no read returns are never observed (20_memory.md R52, R56). Every update of
the machine either ignores memory, or reads it through the decoder, or writes one word of it. -/

namespace Sys2Proof.Machine

/-- The update neither looks at memory nor changes it. -/
def IgnoresMemory (f : State → State) : Prop := ∀ s m, f { s with mem := m } = { f s with mem := m }

theorem IgnoresMemory.mem_eq {f : State → State} (hf : IgnoresMemory f) (s : State) :
    (f s).mem = s.mem :=
  congrArg (·.mem) (hf s s.mem : f s = { f s with mem := s.mem })

theorem ignoresMemory_advance : IgnoresMemory State.advance := by
  intro s m
  simp only [State.advance]
  split <;> rfl

theorem ignoresMemory_br (nzp : BitVec 3) (off : BitVec 9) :
    IgnoresMemory fun s => if brTaken nzp s.cond then s.setPc (pcRel off s) else s := by
  intro s m
  simp only
  split <;> rfl

theorem ignoresMemory_land : IgnoresMemory State.land := by
  intro s m
  rw [land_eq, land_eq]; rfl

theorem ignoresMemory_awaitKey (h : Hold) : IgnoresMemory (awaitKey h) := by
  intro s m
  cases hp : pendingNow s with
  | nil => rw [awaitKey_of_none hp, awaitKey_of_none (s := { s with mem := m }) hp]
  | cons b rest =>
    rw [awaitKey_of_pending hp, awaitKey_of_pending (s := { s with mem := m }) hp]
    cases h <;> rfl

section
variable {s t : State}

theorem SameToProgram.map {f : State → State} (hf : IgnoresMemory f) (h : SameToProgram s t) :
    SameToProgram (f s) (f t) := by
  obtain ⟨heq, hword⟩ := h
  refine ⟨?_, fun a ha => ?_⟩
  · calc f t = f { s with mem := t.mem } := congrArg f heq
      _ = { f s with mem := t.mem } := hf s t.mem
      _ = { f s with mem := (f t).mem } := by rw [hf.mem_eq]
  · rw [State.word_of_mem_eq (hf.mem_eq t), State.word_of_mem_eq (hf.mem_eq s), hword a ha]

theorem SameToProgram.setWithCond (h : SameToProgram s t) (dr : Reg) {v w : Word} (hv : w = v) :
    SameToProgram (s.setWithCond dr v) (t.setWithCond dr w) := by
  subst hv
  exact h.map (f := (·.setWithCond dr w)) fun _ _ => rfl

theorem SameToProgram.setWord (h : SameToProgram s t) {a b v w : Word} (ha : b = a) (hv : w = v) :
    SameToProgram (s.setWord a v) (t.setWord b w) := by
  subst ha hv
  obtain ⟨heq, hword⟩ := h
  refine ⟨?_, fun c hc => ?_⟩
  · conv_lhs => rw [heq]
    rfl
  · by_cases hcb : c = b
    · rw [hcb, State.word_setWord_same, State.word_setWord_same]
    · rw [State.word_setWord_ne _ _ hcb, State.word_setWord_ne _ _ hcb, hword c hc]

theorem SameToProgram.pc_eq (h : SameToProgram s t) : t.pc = s.pc := by rw [h.1]
theorem SameToProgram.run_eq (h : SameToProgram s t) : t.run = s.run := by rw [h.1]
theorem SameToProgram.hold_eq (h : SameToProgram s t) : t.hold = s.hold := by rw [h.1]
theorem SameToProgram.reg_eq (h : SameToProgram s t) (r : Reg) : t.reg r = s.reg r :=
  State.reg_of_x_eq (by rw [h.1]) r
theorem SameToProgram.pcRel_eq (h : SameToProgram s t) {n : Nat} (off : BitVec n) :
    pcRel off t = pcRel off s := by rw [pcRel, pcRel, h.pc_eq]
theorem SameToProgram.baseOff_eq (h : SameToProgram s t) (base : Reg) (off : BitVec 6) :
    baseOff base off t = baseOff base off s := by rw [baseOff, baseOff, h.reg_eq]
theorem SameToProgram.pendingNow_eq (h : SameToProgram s t) : pendingNow t = pendingNow s :=
  by rw [h.1]; rfl

/-- A read that answers in one state gives the same value in the other: it returns a readable word, or
nothing of memory. -/
theorem SameToProgram.memRead (h : SameToProgram s t) {a v : Word} {s' : State}
    (hr : memRead a s = some (v, s')) : ∃ t', memRead a t = some (v, t') ∧ SameToProgram s' t' := by
  have hpend := h.pendingNow_eq
  have hland := h.map ignoresMemory_land
  rcases memRead_cases hr with ⟨ha, rfl, rfl⟩ | ⟨rfl, rfl, rfl⟩ | ⟨rfl, b, rest, hp, rfl, rfl⟩ |
    ⟨rfl, hp, rfl, rfl⟩
  · exact ⟨t, by rw [memRead_below_page ha, h.2 a (.inl ha)], h⟩
  · exact ⟨t.land, by rw [memRead_kbsr, kbsrRead_eq, hpend]; rfl, hland⟩
  · refine ⟨_, by rw [memRead_kbdr, kbdrRead_of_pending (hpend.trans hp)], ?_⟩
    exact (hland.map (f := fun u => { u with keys := rest }) fun _ _ => rfl).setWord rfl rfl
  · refine ⟨t.land, ?_, hland⟩
    rw [memRead_kbdr, kbdrRead_of_none (hpend.trans hp), h.2 0xFE02#16 (.inr rfl)]; rfl

/-- Which reads fault is a matter of the address alone. -/
theorem memRead_none_congr {a : Word} (h : memRead a s = none) (t : State) : memRead a t = none :=
  memRead_eq_none.mpr (memRead_eq_none.mp h)

theorem SameToProgram.withRead (h : SameToProgram s t) {a b : Word} (ha : b = a)
    {k : Word → State → State} (hk : ∀ v s' t', SameToProgram s' t' → SameToProgram (k v s') (k v t')) :
    SameToProgram (withRead a s k) (withRead b t k) := by
  subst ha
  rcases withRead_cases b s k with ⟨v, s', hr, hs⟩ | ⟨hr, hs⟩
  · obtain ⟨t', ht, hst⟩ := h.memRead hr
    rw [hs, withRead_of_some ht]
    exact hk v s' t' hst
  · rw [hs, withRead_of_none (memRead_none_congr hr t)]
    exact h.map fun _ _ => rfl

end

theorem SameToProgram.putsWalk (n : Nat) :
    ∀ (a : Word) {s t : State}, SameToProgram s t → SameToProgram (putsWalk n a s) (putsWalk n a t) := by
  induction n with
  | zero => exact fun _ _ _ h => h
  | succ n ih =>
    refine fun a s t h => h.withRead rfl fun w s' t' h' => ?_
    split
    · exact h'
    · exact ih _ (h'.map (f := (·.emit _)) fun _ _ => rfl)

theorem SameToProgram.putspWalk (n : Nat) :
    ∀ (a : Word) {s t : State}, SameToProgram s t → SameToProgram (putspWalk n a s) (putspWalk n a t) := by
  induction n with
  | zero => exact fun _ _ _ h => h
  | succ n ih =>
    refine fun a s t h => h.withRead rfl fun w s' t' h' => ?_
    split
    · exact h'
    · split
      · exact h'.map (f := (·.emit _)) fun _ _ => rfl
      · exact ih _ (h'.map (f := fun u => (u.emit _).emit _) fun _ _ => rfl)

theorem SameToProgram.putsFrom {s t : State} (h : SameToProgram s t) {a b : Word} (ha : b = a) :
    SameToProgram (putsFrom a s) (putsFrom b t) := by
  rw [ha]; exact .putsWalk _ a h

theorem SameToProgram.putspFrom {s t : State} (h : SameToProgram s t) {a b : Word} (ha : b = a) :
    SameToProgram (putspFrom a s) (putspFrom b t) := by
  rw [ha]; exact .putspWalk _ a h

/-- An instruction sees memory through the decoder alone. The cases left to the end are the operate
instructions and LEA, which write to DR a value made of registers and pc. -/
theorem SameToProgram.exec {s t : State} (h : SameToProgram s t) (i : Instr) :
    SameOutcome (exec i s) (exec i t) := by
  have hload (dr : Reg) (v : Word) (s' t' : State) (h' : SameToProgram s' t') :
      SameToProgram (s'.setWithCond dr v) (t'.setWithCond dr v) := h'.setWithCond dr rfl
  have hlink : SameToProgram s.link t.link := h.map fun _ _ => rfl
  cases i
  case br nzp off => exact h.map (ignoresMemory_br nzp off)
  case ld dr off => exact h.withRead (h.pcRel_eq off) (hload dr)
  case ldr dr base off => exact h.withRead (h.baseOff_eq base off) (hload dr)
  case ldi dr off =>
    exact h.withRead (h.pcRel_eq off) fun _ _ _ h' => h'.withRead rfl (hload dr)
  case st sr off => exact h.setWord (h.pcRel_eq off) (h.reg_eq sr)
  case str sr base off => exact h.setWord (h.baseOff_eq base off) (h.reg_eq sr)
  case sti sr off => exact h.withRead (h.pcRel_eq off) fun _ _ _ h' => h'.setWord rfl (h'.reg_eq sr)
  case getc => exact hlink.map (ignoresMemory_awaitKey .getc)
  case inp => exact (hlink.map fun _ _ => rfl).map (ignoresMemory_awaitKey .inp)
  case puts => exact hlink.putsFrom (hlink.reg_eq 0)
  case putsp => exact hlink.putspFrom (hlink.reg_eq 0)
  case jsr off => exact h.map (f := fun u => u.link.setPc (pcRel off u)) fun _ _ => rfl
  case jsrr base => exact h.map (f := fun u => u.link.setPc (u.link.reg base)) fun _ _ => rfl
  case jmp base => exact h.map (f := fun u => u.setPc (u.reg base)) fun _ _ => rfl
  case rti => exact h.map (f := (·.raise _)) fun _ _ => rfl
  case res => exact h.map (f := (·.raise _)) fun _ _ => rfl
  case trap => exact hlink.map (f := (·.raise _)) fun _ _ => rfl
  case out => exact hlink.map (f := fun u => u.emit (lowByte (u.reg 0))) fun _ _ => rfl
  case halt => exact hlink.map (f := fun u => (u.emitAll _).setRun _) fun _ _ => rfl
  all_goals exact h.setWithCond _ (by simp only [h.reg_eq, h.pcRel_eq])

/-- The fetch is a read like any other. -/
theorem SameToProgram.cycle {s t : State} (h : SameToProgram s t) : SameOutcome (cycle s) (cycle t) := by
  rw [Machine.cycle, Machine.cycle, h.pc_eq]
  cases hs : Machine.memRead s.pc s with
  | none =>
    rw [memRead_none_congr hs t]
    exact h.map (f := (·.raise _)) fun _ _ => rfl
  | some p =>
    obtain ⟨w, s'⟩ := p
    obtain ⟨t', ht, h'⟩ := h.memRead hs
    rw [ht]
    exact (h'.map ignoresMemory_advance).exec (decode w)

/-- Settles O60: the run state and the hold decide alike in both states what the step is. -/
theorem unreadableWordsAreNeverObserved : Obligations.UnreadableWordsAreNeverObserved := by
  intro s t h
  unfold step
  rw [h.run_eq]
  cases s.run with
  | loaded => exact h.map fun _ _ => rfl
  | running =>
    simp only [runStep, h.hold_eq]
    cases s.hold with
    | some hd => exact h.map (ignoresMemory_awaitKey hd)
    | none => exact h.cycle
  | halted => exact h
  | faulted c => rfl

end Sys2Proof.Machine
end

section
/-! PROOFS. The words of an instruction: those that have its bits wherever its format reads one
(30_encoding.md R82, R86). The decoder answers a well-formed instruction for its words and no others. -/

namespace Sys2Proof

/-- The word has the instruction's bit wherever the instruction's format reads one (R82, R86). -/
def Fits (w : Word) (i : Instr) : Prop := w &&& careMask i = encode i &&& careMask i

theorem fits_encode (i : Instr) : Fits (encode i) i := rfl

theorem decodeTrap_of_not_service {v : BitVec 8} (h : isServiceVector v = false) :
    decodeTrap v = .trap v := by
  revert v; decide

/-! ## What a word that fits an instruction has in a field that the instruction's format reads -/

section
variable {w : Word} {i : Instr} {lo : Nat}

theorem Fits.field (h : Fits w i) {n : Nat} {v : BitVec n}
    (hv : (encode i).extractLsb' lo n = v)
    (hread : (careMask i).extractLsb' lo n = BitVec.allOnes n := by rw [careMask]; rfl) :
    w.extractLsb' lo n = v := by
  rw [← hv]
  simpa [BitVec.extractLsb'_and, hread] using congrArg (BitVec.extractLsb' lo n) h

theorem Fits.reg (h : Fits w i) {r : Reg} (hr : (encode i).extractLsb' lo 3 = regBits r)
    (hread : (careMask i).extractLsb' lo 3 = BitVec.allOnes 3 := by rw [careMask]; rfl) :
    regField w lo = r :=
  regField_of_bits (h.field hr hread)

theorem Fits.flag (h : Fits w i) {b : Bool} (hb : (encode i).getLsbD lo = b)
    (hread : (careMask i).getLsbD lo = true := by rw [careMask]; rfl) : w.getLsbD lo = b := by
  rw [← hb]
  simpa [hread] using congrArg (BitVec.getLsbD · lo) h

/-- TRAP and its services read the opcode and the vector alone (R150). -/
theorem Fits.decode_trap (h : Fits w i) {v : BitVec 8} (hi : encode i = 0xF#4 ++ 0#4 ++ v)
    (hm : careMask i = 0xF0FF#16) : decode w = decodeTrap v := by
  have hop : w.extractLsb' 12 4 = 0xF#4 := h.field (hi ▸ op_dc_vect_op ..) (hm ▸ rfl)
  have hvect : w.extractLsb' 0 8 = v := h.field (hi ▸ op_dc_vect_low ..) (hm ▸ rfl)
  rw [decode, hop, hvect]
  rfl

end

/-- The decoder's answer is made of fields that the instruction's format reads, so a word that fits a
well-formed instruction is decoded to it. -/
theorem Fits.decode_eq {w : Word} {i : Instr} (h : Fits w i) (hi : WellFormed i = true) :
    decode w = i := by
  cases i
  case br =>
    rw [decode, h.field (op_reg_off9_op ..), h.field (op_reg_off9_hiReg ..),
      h.field (op_reg_off9_low ..)]
    rfl
  case ld | st | ldi | sti | lea =>
    rw [decode, h.field (op_reg_off9_op ..), h.reg (op_reg_off9_hiReg ..),
      h.field (op_reg_off9_low ..)]
    rfl
  case addReg | andReg =>
    rw [decode, h.field (op_reg_reg_flag_dc_reg_op ..), h.flag (op_reg_reg_flag_dc_reg_flag ..),
      h.reg (op_reg_reg_flag_dc_reg_hiReg ..), h.reg (op_reg_reg_flag_dc_reg_midReg ..),
      h.reg (op_reg_reg_flag_dc_reg_loReg ..)]
    rfl
  case addImm | andImm =>
    rw [decode, h.field (op_reg_reg_flag_imm_op ..), h.flag (op_reg_reg_flag_imm_flag ..),
      h.reg (op_reg_reg_flag_imm_hiReg ..), h.reg (op_reg_reg_flag_imm_midReg ..),
      h.field (op_reg_reg_flag_imm_low ..)]
    rfl
  case ldr | str =>
    rw [decode, h.field (op_reg_reg_off6_op ..), h.reg (op_reg_reg_off6_hiReg ..),
      h.reg (op_reg_reg_off6_midReg ..), h.field (op_reg_reg_off6_low ..)]
    rfl
  case not =>
    rw [decode, h.field (op_reg_reg_off6_op ..), h.reg (op_reg_reg_off6_hiReg ..),
      h.reg (op_reg_reg_off6_midReg ..)]
    rfl
  case jmp =>
    rw [decode, h.field (op_reg_reg_off6_op ..), h.reg (op_reg_reg_off6_midReg ..)]
    rfl
  case jsr =>
    rw [decode, h.field (op_flag_off11_op ..), h.flag (op_flag_off11_flag ..),
      h.field (op_flag_off11_low ..)]
    rfl
  case jsrr =>
    rw [decode, h.field (op_flag_dc_reg_dc_op ..), h.flag (op_flag_dc_reg_dc_flag ..),
      h.reg (op_flag_dc_reg_dc_midReg ..)]
    rfl
  case rti | res =>
    rw [decode, h.field (op_field12_op ..), h.field (op_field12_low ..)]
    rfl
  case trap =>
    have hv := (Bool.not_eq_true' _).mp hi
    exact (h.decode_trap rfl rfl).trans (decodeTrap_of_not_service hv)
  all_goals exact h.decode_trap rfl rfl

/-! ## The word of a decoded instruction -/

theorem encode_decodeTrap (v : BitVec 8) : encode (decodeTrap v) = 0xF#4 ++ 0#4 ++ v := by
  unfold decodeTrap
  split_ifs <;> simp_all only [encode]

theorem careMask_decodeTrap (v : BitVec 8) : careMask (decodeTrap v) = 0xF0FF#16 := by
  unfold decodeTrap
  split_ifs <;> rfl

theorem wellFormed_decodeTrap (v : BitVec 8) : WellFormed (decodeTrap v) = true := by
  revert v; decide

/-- Under a mask that is 0 there, the bits of a field do not matter. -/
theorem and_append_hole {a b : Nat} {x y m : BitVec a} (h : x &&& m = y &&& m) (d d' : BitVec b) :
    (x ++ d) &&& (m ++ 0#b) = (y ++ d') &&& (m ++ 0#b) := by
  simp only [BitVec.and_append, h, BitVec.and_zero]

theorem and_append_same {a b : Nat} {x y m : BitVec a} (h : x &&& m = y &&& m) (f n : BitVec b) :
    (x ++ f) &&& (m ++ n) = (y ++ f) &&& (m ++ n) := by
  simp only [BitVec.and_append, h]

theorem fits_addReg (dr sr1 sr2 : Reg) (xx : BitVec 2) :
    Fits (0x1#4 ++ regBits dr ++ regBits sr1 ++ 0#1 ++ xx ++ regBits sr2) (.addReg dr sr1 sr2) :=
  and_append_same (and_append_hole (m := 0x7FF#11) rfl _ _) _ 0x7#3

theorem fits_andReg (dr sr1 sr2 : Reg) (xx : BitVec 2) :
    Fits (0x5#4 ++ regBits dr ++ regBits sr1 ++ 0#1 ++ xx ++ regBits sr2) (.andReg dr sr1 sr2) :=
  and_append_same (and_append_hole (m := 0x7FF#11) rfl _ _) _ 0x7#3

theorem fits_not (dr sr : Reg) (x6 : BitVec 6) :
    Fits (0x9#4 ++ regBits dr ++ regBits sr ++ x6) (.not dr sr) :=
  and_append_hole (m := 0x3FF#10) rfl _ _

theorem fits_jmp (base : Reg) (x3 : BitVec 3) (x6 : BitVec 6) :
    Fits (0xC#4 ++ x3 ++ regBits base ++ x6) (.jmp base) :=
  and_append_hole (and_append_same (and_append_hole (m := 0xF#4) rfl _ _) _ 0x7#3) _ _

theorem fits_jsrr (base : Reg) (x2 : BitVec 2) (x6 : BitVec 6) :
    Fits (0x4#4 ++ 0#1 ++ x2 ++ regBits base ++ x6) (.jsrr base) :=
  and_append_hole (and_append_same (and_append_hole (m := 0x1F#5) rfl _ _) _ 0x7#3) _ _

theorem fits_decodeTrap (x4 : BitVec 4) (v : BitVec 8) : Fits (0xF#4 ++ x4 ++ v) (decodeTrap v) := by
  rw [Fits, encode_decodeTrap, careMask_decodeTrap]
  exact and_append_same (and_append_hole (m := 0xF#4) rfl _ _) _ 0xFF#8

/-! ## A word is its fields, put together -/

theorem field_of_flag {w : Word} {lo : Nat} {g : BitVec 1} (h : w.getLsbD lo = g.getLsbD 0) :
    w.extractLsb' lo 1 = g := by
  apply BitVec.eq_of_getLsbD_eq
  intro i hi
  obtain rfl : i = 0 := by omega
  simpa using h

section
open BitVec (extractLsb'_append_extractLsb'_eq_extractLsb' extractLsb'_eq_self)
variable {w : Word} {op : BitVec 4} (h : (w.extractLsb' 12 4).toNat = op.toNat)
include h

theorem op_field12_join : op ++ w.extractLsb' 0 12 = w := by
  obtain rfl := BitVec.eq_of_toNat_eq h
  simp (disch := rfl) only [extractLsb'_append_extractLsb'_eq_extractLsb', extractLsb'_eq_self]

theorem op_reg_off9_join : op ++ regBits (regField w 9) ++ w.extractLsb' 0 9 = w := by
  obtain rfl := BitVec.eq_of_toNat_eq h
  simp (disch := rfl) only [regBits_regField, extractLsb'_append_extractLsb'_eq_extractLsb',
    extractLsb'_eq_self]

theorem op_reg_reg_off6_join :
    op ++ regBits (regField w 9) ++ regBits (regField w 6) ++ w.extractLsb' 0 6 = w := by
  obtain rfl := BitVec.eq_of_toNat_eq h
  simp (disch := rfl) only [regBits_regField, extractLsb'_append_extractLsb'_eq_extractLsb',
    extractLsb'_eq_self]

theorem op_reg_reg_flag_imm_join {g : BitVec 1} (hg : w.getLsbD 5 = g.getLsbD 0) :
    op ++ regBits (regField w 9) ++ regBits (regField w 6) ++ g ++ w.extractLsb' 0 5 = w := by
  obtain rfl := BitVec.eq_of_toNat_eq h
  simp (disch := rfl) only [regBits_regField, ← field_of_flag hg,
    extractLsb'_append_extractLsb'_eq_extractLsb', extractLsb'_eq_self]

theorem op_reg_reg_flag_dc_reg_join {g : BitVec 1} (hg : w.getLsbD 5 = g.getLsbD 0) :
    op ++ regBits (regField w 9) ++ regBits (regField w 6) ++ g ++ w.extractLsb' 3 2 ++
      regBits (regField w 0) = w := by
  obtain rfl := BitVec.eq_of_toNat_eq h
  simp (disch := rfl) only [regBits_regField, ← field_of_flag hg,
    extractLsb'_append_extractLsb'_eq_extractLsb', extractLsb'_eq_self]

theorem op_flag_off11_join {g : BitVec 1} (hg : w.getLsbD 11 = g.getLsbD 0) :
    op ++ g ++ w.extractLsb' 0 11 = w := by
  obtain rfl := BitVec.eq_of_toNat_eq h
  simp (disch := rfl) only [← field_of_flag hg, extractLsb'_append_extractLsb'_eq_extractLsb',
    extractLsb'_eq_self]

theorem op_flag_dc_reg_dc_join {g : BitVec 1} (hg : w.getLsbD 11 = g.getLsbD 0) :
    op ++ g ++ w.extractLsb' 9 2 ++ regBits (regField w 6) ++ w.extractLsb' 0 6 = w := by
  obtain rfl := BitVec.eq_of_toNat_eq h
  simp (disch := rfl) only [regBits_regField, ← field_of_flag hg,
    extractLsb'_append_extractLsb'_eq_extractLsb', extractLsb'_eq_self]

theorem op_dc_vect_join : op ++ w.extractLsb' 8 4 ++ w.extractLsb' 0 8 = w := by
  obtain rfl := BitVec.eq_of_toNat_eq h
  simp (disch := rfl) only [extractLsb'_append_extractLsb'_eq_extractLsb', extractLsb'_eq_self]

end

theorem Fits.of_eq {u w : Word} {i : Instr} (h : Fits u i) (e : u = w) : Fits w i := e ▸ h

/-- Every word fits the instruction it decodes to: the word is put together from the fields that the
decoder reads and the bits that it ignores. The case `h_k` is the opcode number k - 1 (R81). -/
theorem fits_decode (w : Word) : Fits w (decode w) := by
  unfold decode
  split
  -- BR, whose mask nzp has the place of DR.
  case h_1 hop =>
    rw [← regBits_regField]
    exact (fits_encode _).of_eq (op_reg_off9_join hop)
  -- LD, ST, LDI, STI, LEA.
  case h_3 hop | h_4 hop | h_11 hop | h_12 hop | h_15 hop =>
    exact (fits_encode _).of_eq (op_reg_off9_join hop)
  -- ADD.
  case h_2 hop =>
    split
    case isTrue hf => exact (fits_encode _).of_eq (op_reg_reg_flag_imm_join hop hf)
    case isFalse hf =>
      exact (fits_addReg ..).of_eq (op_reg_reg_flag_dc_reg_join hop (Bool.eq_false_of_not_eq_true hf))
  -- JSR and JSRR.
  case h_5 hop =>
    split
    case isTrue hf => exact (fits_encode _).of_eq (op_flag_off11_join hop hf)
    case isFalse hf =>
      exact (fits_jsrr ..).of_eq (op_flag_dc_reg_dc_join hop (Bool.eq_false_of_not_eq_true hf))
  -- AND.
  case h_6 hop =>
    split
    case isTrue hf => exact (fits_encode _).of_eq (op_reg_reg_flag_imm_join hop hf)
    case isFalse hf =>
      exact (fits_andReg ..).of_eq (op_reg_reg_flag_dc_reg_join hop (Bool.eq_false_of_not_eq_true hf))
  -- LDR, STR.
  case h_7 hop | h_8 hop => exact (fits_encode _).of_eq (op_reg_reg_off6_join hop)
  -- RTI, RES.
  case h_9 hop | h_14 hop => exact (fits_encode _).of_eq (op_field12_join hop)
  -- NOT.
  case h_10 hop => exact (fits_not ..).of_eq (op_reg_reg_off6_join hop)
  -- JMP.
  case h_13 hop => exact (fits_jmp ..).of_eq (op_reg_reg_off6_join hop)
  -- TRAP and the services.
  case h_16 =>
    have hlt : (w.extractLsb' 12 4).toNat < 16 := BitVec.isLt _
    have hop : (w.extractLsb' 12 4).toNat = 15 := by grind
    exact (fits_decodeTrap ..).of_eq (op_dc_vect_join hop)

/-! ## The obligations -/

/-- Settles O1: an instruction's own word fits it. -/
theorem decodeOfEncodeIsIdentity : Obligations.DecodeOfEncodeIsIdentity :=
  fun i hi => (fits_encode i).decode_eq hi

/-- Settles O2: only the last opcode reaches the constructor of an undefined vector, and `decodeTrap`
answers the services first. -/
theorem decodedWordsAreWellFormed : Obligations.DecodedWordsAreWellFormed := by
  intro w
  unfold decode
  split
  case h_2 | h_5 | h_6 => split <;> rfl
  case h_16 => exact wellFormed_decodeTrap _
  all_goals rfl

/-- Settles O3: a word that agrees with `w` in the bits that the format of `w` reads fits the
instruction that `w` fits. -/
theorem onlyReadBitsDecideTheInstruction : Obligations.OnlyReadBitsDecideTheInstruction := by
  intro w
  have hw : Fits w (decode w) := fits_decode w
  refine ⟨hw.symm, fun w' h => ?_⟩
  have hw' : Fits w' (decode w) := h.trans hw
  exact hw'.decode_eq (decodedWordsAreWellFormed w)

/-- Settles O4: eight closed words. -/
theorem sampleWordsDecodeAsTheSpecWritesThem : Obligations.SampleWordsDecodeAsTheSpecWritesThem := by
  unfold Obligations.SampleWordsDecodeAsTheSpecWritesThem
  decide

end Sys2Proof
end

section
/-! PROOFS. A RUNNING block never lacks a next state (30_encoding.md R85, 60_exceptions.md R188). -/

namespace Sys2Proof.Machine

theorem step_of_hold {s : State} {hd : Hold} (hr : s.run = .running) (hh : s.hold = some hd) :
    step s = .next (awaitKey hd s) := by
  rw [step, hr, runStep, hh]

/-- Settles O56: a RUNNING block polls its hold, or its fetch faults, or it runs the instruction
fetched; every instruction answers a next state. -/
theorem runningBlockAlwaysHasANextState : Obligations.RunningBlockAlwaysHasANextState := by
  intro s hr
  cases hh : s.hold with
  | some hd => exact ⟨_, step_of_hold hr hh⟩
  | none =>
    cases hm : memRead s.pc s with
    | none => exact ⟨_, step_of_fetch_fault ⟨hr, hh⟩ hm⟩
    | some p =>
      obtain ⟨t, ht⟩ := exec_next (decode p.1) (p.2.setPc (s.pc + 1#16))
      exact ⟨t, (step_of_fetch ⟨hr, hh⟩ hm).trans ht⟩

end Sys2Proof.Machine
end

section
/-! PROOFS. The operate instructions (40_operate.md R110 to R115): each is one write of a register with
the flags, so its value is all that they differ in. -/

namespace Sys2Proof.Machine

/-! ## A register written with the flags -/

theorem condShows_condOf (v : Word) : CondShows v (condOf v) := by
  refine ⟨fun hpos => if_pos hpos, fun hneg => ?_, ?_⟩
  · rw [condOf, if_neg (by omega), if_pos hneg]
  · rintro rfl
    rfl

theorem condShows_setWithCond (s : State) (r : Reg) (v : Word) :
    CondShows ((s.setWithCond r v).reg r) (s.setWithCond r v).cond := by
  rw [State.reg_setWithCond_same]
  exact condShows_condOf v

theorem keptButRegCond_setWithCond (s : State) (r : Reg) (v : Word) :
    KeptButRegCond r s (s.setWithCond r v) :=
  ⟨fun _ hne => State.reg_setWithCond_ne s v hne, rfl, State.word_setWithCond s r v,
    ⟨rfl, rfl, rfl⟩, rfl, rfl⟩

/-! ## The sign-extended immediate -/

theorem sext_eq_signedField {n : Nat} (v : BitVec n) : sext v = signedField v := rfl

theorem toNat_add_signedField {n : Nat} (a : Word) (v : BitVec n) :
    ((a + signedField v).toNat : Int) = (a.toNat + v.toInt) % 0x10000 := by
  have hv : ((signedField v).toNat : Int) = v.toInt % 0x10000 := by
    rw [signedField, BitVec.toNat_ofInt]
    exact Int.toNat_of_nonneg (Int.emod_nonneg _ (by decide))
  calc ((a + signedField v).toNat : Int)
      = (a.toNat + (signedField v).toNat) % 0x10000 := by simp [BitVec.toNat_add]
    _ = (a.toNat + v.toInt) % 0x10000 := by rw [hv, Int.add_emod_emod]

theorem getLsbD_sext {n b : Nat} (v : BitVec n) (hb : b < 16) :
    (sext v).getLsbD b = v.getLsbD (min b (n - 1)) := by
  rw [sext, BitVec.getLsbD_signExtend, BitVec.msb_eq_getLsbD_last]
  by_cases hn : b < n
  · simp [hb, hn, show min b (n - 1) = b by omega]
  · simp [hb, hn, show min b (n - 1) = n - 1 by omega]

/-! ## The obligations -/

/-- Settles O18: the word fits ADD whatever its ignored bits are. -/
theorem addRegisterWritesWrappedSum : Obligations.AddRegisterWritesWrappedSum := by
  intro dr sr1 sr2 xx s
  refine ⟨(fits_addReg ..).decode_eq rfl, _, rfl, ?_, condShows_setWithCond ..,
    keptButRegCond_setWithCond ..⟩
  rw [State.reg_setWithCond_same, BitVec.toNat_add]

/-- Settles O19: the immediate is added as the integer it stands for. -/
theorem addImmediateWritesWrappedSum : Obligations.AddImmediateWritesWrappedSum := by
  intro dr sr1 imm s
  refine ⟨(fits_encode (.addImm dr sr1 imm)).decode_eq rfl, _, rfl, ?_, condShows_setWithCond ..,
    keptButRegCond_setWithCond ..⟩
  rw [State.reg_setWithCond_same, sext_eq_signedField, toNat_add_signedField]

/-- Settles O20: the word fits AND whatever its ignored bits are. -/
theorem andRegisterWritesBitwiseAnd : Obligations.AndRegisterWritesBitwiseAnd := by
  intro dr sr1 sr2 xx s
  refine ⟨(fits_andReg ..).decode_eq rfl, _, rfl, fun b => ?_, condShows_setWithCond ..,
    keptButRegCond_setWithCond ..⟩
  rw [State.reg_setWithCond_same, BitVec.getLsbD_and]

/-- Settles O21: above bit 4 the extended immediate has its sign bit. -/
theorem andImmediateWritesBitwiseAnd : Obligations.AndImmediateWritesBitwiseAnd := by
  intro dr sr1 imm s
  refine ⟨(fits_encode (.andImm dr sr1 imm)).decode_eq rfl, _, rfl, fun b hb => ?_,
    condShows_setWithCond .., keptButRegCond_setWithCond ..⟩
  rw [State.reg_setWithCond_same, BitVec.getLsbD_and, getLsbD_sext imm hb]

/-- Settles O22: the register written is DR, and SR only gives the bits (90_conflicts.md C1). -/
theorem notWritesComplementToDestination : Obligations.NotWritesComplementToDestination := by
  intro dr sr xx s
  refine ⟨(fits_not ..).decode_eq rfl, _, rfl, fun b hb => ?_, condShows_setWithCond ..,
    keptButRegCond_setWithCond ..⟩
  rw [State.reg_setWithCond_same, BitVec.getLsbD_not, decide_eq_true hb, Bool.true_and]

end Sys2Proof.Machine
end

section
/-! PROOFS. The load instructions (41_load.md R120 to R123): each writes DR with the flags, after its
reads or, for LEA, after none. The addresses of the statements are `pcRel` and `baseOff` by definition
(`sext_eq_signedField`). -/

namespace Sys2Proof.Machine

/-! ## What reads leave -/

/-- Nothing but the keyboard channel, its schedule and the KBDR cache differs, as after any number of
reads (20_memory.md R52 to R55). -/
structure LeftByReads (s u : State) : Prop where
  frame : u = { s with mem := u.mem, keys := u.keys, arrivals := u.arrivals }
  memKeptBut : MemKeptBut 0xFE02#16 s u

theorem memRead_leftByReads {a v : Word} {s u : State} (h : memRead a s = some (v, u)) :
    LeftByReads s u := ⟨memRead_frame h, memRead_memKeptBut h⟩

section
variable {r s u : State}

theorem LeftByReads.trans (h : LeftByReads r s) (h' : LeftByReads s u) : LeftByReads r u where
  frame := by rw [h'.frame, h.frame]
  memKeptBut b hb := (h'.memKeptBut b hb).trans (h.memKeptBut b hb)

theorem MemKept.trans (h : MemKept r s) (h' : MemKept s u) : MemKept r u :=
  fun b => (h' b).trans (h b)

theorem LeftByReads.reg_eq (h : LeftByReads s u) (i : Reg) : u.reg i = s.reg i := by
  rw [h.frame]; rfl

theorem LeftByReads.pc_eq (h : LeftByReads s u) : u.pc = s.pc := by rw [h.frame]
theorem LeftByReads.out_eq (h : LeftByReads s u) : u.out = s.out := by rw [h.frame]
theorem LeftByReads.runKept (h : LeftByReads s u) : RunKept s u := by rw [h.frame]; exact ⟨rfl, rfl⟩

end

/-! ## A load -/

/-- `t` is `s` after a load of `v` to DR whose reads left `u`; `noCacheRead` says that none of them was
at 0xFE02. -/
def Loaded (dr : Reg) (v : Word) (noCacheRead : Prop) (s u t : State) : Prop :=
  t.reg dr = v ∧ CondShows v t.cond ∧ RegsKeptBut dr s t ∧ t.pc = s.pc ∧ t.out = s.out ∧ RunKept s t ∧
    MemKept u t ∧ MemKeptBut 0xFE02#16 s t ∧ (noCacheRead → MemKept s t) ∧ KeysKept u t

/-- DR written with the flags after reads is a load: the write itself touches neither memory nor keys. -/
theorem LeftByReads.loaded {s u : State} (h : LeftByReads s u) {noCacheRead : Prop}
    (hmem : noCacheRead → MemKept s u) (dr : Reg) (v : Word) :
    Loaded dr v noCacheRead s u (u.setWithCond dr v) := by
  have hregs : RegsKeptBut dr s (u.setWithCond dr v) := fun i hne =>
    (State.reg_setWithCond_ne u v hne).trans (h.reg_eq i)
  exact ⟨State.reg_setWithCond_same u dr v, condShows_condOf v, hregs, h.pc_eq, h.out_eq, h.runKept,
    fun _ => rfl, h.memKeptBut, hmem, rfl, rfl⟩

/-- LD and LDR from their address on: one read, and then the load or the fatal error of the address. -/
theorem load_of_one_read (dr : Reg) (a : Word) (s : State) :
    (∀ v u, memRead a s = some (v, u) →
      ∃ t, (.next (withRead a s fun v t => t.setWithCond dr v) : Result) = .next t ∧
        Loaded dr v (a ≠ 0xFE02#16) s u t) ∧
    (memRead a s = none →
      (.next (withRead a s fun v t => t.setWithCond dr v) : Result) =
        .next { s with run := .faulted (.unimplementedMemoryMap a) }) :=
  ⟨fun v _ h => ⟨_, congrArg _ (withRead_of_some h _),
      (memRead_leftByReads h).loaded (memRead_memKept h) dr v⟩,
    fun h => congrArg _ (withRead_of_none h _)⟩

theorem execLdi_of_pointer {dr : Reg} {off : BitVec 9} {s u : State} {p : Word}
    (h : memRead (pcRel off s) s = some (p, u)) :
    execLdi dr off s = .next (withRead p u fun v t => t.setWithCond dr v) :=
  congrArg _ (withRead_of_some h _)

/-! ## The obligations -/

/-- Settles O24: LD is one read at pc plus the offset. -/
theorem ldLoadsThroughTheReadDecoder : Obligations.LdLoadsThroughTheReadDecoder :=
  fun dr off s => ⟨(fits_encode (.ld dr off)).decode_eq rfl, load_of_one_read dr (pcRel off s) s⟩

/-- Settles O25: LDR is one read at BaseR plus the offset, in the state before DR is written. -/
theorem ldrLoadsThroughTheReadDecoder : Obligations.LdrLoadsThroughTheReadDecoder :=
  fun dr base off s =>
    ⟨(fits_encode (.ldr dr base off)).decode_eq rfl, load_of_one_read dr (baseOff base off s) s⟩

/-- Settles O26: once the pointer is read, what is left of LDI is the data's read, in the state that the
pointer's read left. -/
theorem ldiLoadsThroughThePointer : Obligations.LdiLoadsThroughThePointer := by
  intro dr off s
  refine ⟨(fits_encode (.ldi dr off)).decode_eq rfl, fun p u hp => ⟨fun v u' hv => ?_, fun hv => ?_⟩,
    fun hp => congrArg _ (withRead_of_none hp _)⟩
  · have hreads : LeftByReads s u' := (memRead_leftByReads hp).trans (memRead_leftByReads hv)
    have hmem : pcRel off s ≠ 0xFE02#16 ∧ p ≠ 0xFE02#16 → MemKept s u' := fun ⟨hpa, hea⟩ =>
      (memRead_memKept hp hpa).trans (memRead_memKept hv hea)
    have hloaded := hreads.loaded hmem dr v
    rw [Loaded, and_imp] at hloaded
    exact ⟨_, (execLdi_of_pointer hp).trans (congrArg _ (withRead_of_some hv _)), hloaded⟩
  · exact (execLdi_of_pointer hp).trans (congrArg _ (withRead_of_none hv _))

/-- Settles O23: LEA writes the address that LD would read. -/
theorem leaWritesTheEffectiveAddress : Obligations.LeaWritesTheEffectiveAddress := by
  intro dr off s
  exact ⟨(fits_encode (.lea dr off)).decode_eq rfl, _, rfl, State.reg_setWithCond_same ..,
    condShows_setWithCond .., keptButRegCond_setWithCond ..⟩

end Sys2Proof.Machine
end

section
/-! PROOFS. The store instructions (42_store.md R130 to R132): each is one write of SR's word, at an
address that ST and STR compute and that STI reads. A write reaches every address (20_memory.md R53). -/

namespace Sys2Proof.Machine

/-! ## A store -/

/-- `t` is `s` after a store of `v` at `a`. -/
def Stored (a v : Word) (s t : State) : Prop :=
  t.word a = v ∧ MemKeptBut a s t ∧ RegsKept s t ∧ t.cond = s.cond ∧ t.pc = s.pc ∧ PortsKept s t ∧
    RunKept s t

theorem stored_memWrite (a v : Word) (s : State) : Stored a v s (memWrite a v s) :=
  ⟨State.word_setWord_same s a v, fun _ hb => State.word_setWord_ne s v hb, State.reg_setWord s a v,
    rfl, rfl, ⟨rfl, rfl, rfl⟩, rfl, rfl⟩

/-! ## A store after a read -/

theorem LeftByReads.cond_eq {s u : State} (h : LeftByReads s u) : u.cond = s.cond := by rw [h.frame]

theorem MemKeptBut.of_memKept {a : Word} {s u t : State} (h : MemKept s u) (h' : MemKeptBut a u t) :
    MemKeptBut a s t := fun b hb => (h' b hb).trans (h b)

/-- STI stores SR's word as it was before the pointer's read, which writes no register. -/
theorem execSti_of_pointer {sr : Reg} {off : BitVec 9} {s u : State} {p : Word}
    (h : memRead (pcRel off s) s = some (p, u)) :
    execSti sr off s = .next (memWrite p (s.reg sr) u) := by
  rw [execSti, withRead_of_some h, memRead_reg h]

/-! ## The obligations -/

/-- Settles O27: the one write is at pc plus the offset. -/
theorem stStoresAtPcPlusOffset : Obligations.StStoresAtPcPlusOffset :=
  fun sr off s => ⟨(fits_encode (.st sr off)).decode_eq rfl, _, rfl, stored_memWrite (pcRel off s) ..⟩

/-- Settles O28: the one write is at BaseR plus the offset. -/
theorem strStoresAtBasePlusOffset : Obligations.StrStoresAtBasePlusOffset :=
  fun sr base off s =>
    ⟨(fits_encode (.str sr base off)).decode_eq rfl, _, rfl, stored_memWrite (baseOff base off s) ..⟩

/-- Settles O29: the write keeps what the pointer's read left, and that read left all but the keyboard
and the KBDR cache as it was. -/
theorem stiStoresThroughThePointer : Obligations.StiStoresThroughThePointer := by
  intro sr off s
  refine ⟨(fits_encode (.sti sr off)).decode_eq rfl, fun p u hp => ?_,
    fun hp => congrArg _ (withRead_of_none hp _)⟩
  have hread : LeftByReads s u := memRead_leftByReads hp
  obtain ⟨hword, hmem, hregs, hcond, hpc, ⟨hout, hkeys⟩, hrun, hhold⟩ :=
    stored_memWrite p (s.reg sr) u
  have hmemCache : ∀ b, b ≠ p → b ≠ 0xFE02#16 → (memWrite p (s.reg sr) u).word b = s.word b :=
    fun b hbp hbc => (hmem b hbp).trans (hread.memKeptBut b hbc)
  have hmemFirst : pcRel off s ≠ 0xFE02#16 → MemKeptBut p s (memWrite p (s.reg sr) u) :=
    fun ha => .of_memKept (memRead_memKept hp ha) hmem
  obtain ⟨hrun', hhold'⟩ := hread.runKept
  exact ⟨_, execSti_of_pointer hp, hword, hmem, hmemCache, hmemFirst,
    fun r => (hregs r).trans (hread.reg_eq r), hcond.trans hread.cond_eq, hpc.trans hread.pc_eq,
    hout.trans hread.out_eq, hkeys, hrun.trans hrun', hhold.trans hhold'⟩

end Sys2Proof.Machine
end

section
/-! PROOFS. Control transfer (43_control.md R140 to R143): each instruction sets pc, or for BR may leave it,
and JSR and JSRR write the link first. -/

namespace Sys2Proof.Machine

/-! ## What a control transfer leaves unchanged -/

/-- All but the general registers and pc. -/
def KeptButRegsPc (s t : State) : Prop :=
  t.cond = s.cond ∧ MemKept s t ∧ PortsKept s t ∧ RunKept s t

theorem KeptButRegsPc.refl (s : State) : KeptButRegsPc s s :=
  ⟨rfl, fun _ => rfl, ⟨rfl, rfl, rfl⟩, rfl, rfl⟩

theorem keptButRegsPc_link (s : State) : KeptButRegsPc s s.link :=
  ⟨rfl, State.word_link s, ⟨rfl, rfl, rfl⟩, rfl, rfl⟩

theorem KeptButRegsPc.setPc {s t : State} (h : KeptButRegsPc s t) (v : Word) :
    KeptButRegsPc s (t.setPc v) := h

/-! ## The branch -/

theorem brTaken_iff {nzp c : BitVec 3} :
    brTaken nzp c = true ↔ nzp &&& c ≠ 0b000#3 ∨ nzp = 0b111#3 := by
  simp [brTaken]

/-- R29's pairing: under a legal cond, a mask meets it in the flag that one of the mask's bits names. -/
theorem brTaken_flags_iff (n z p : Bool) {s : State} (hs : condLegal s) :
    brTaken (BitVec.ofBool n ++ BitVec.ofBool z ++ BitVec.ofBool p) s.cond = true ↔
      (n = true ∧ s.cond = 0b100#3) ∨ (z = true ∧ s.cond = 0b010#3) ∨ (p = true ∧ s.cond = 0b001#3) ∨
        (n = true ∧ z = true ∧ p = true) := by
  rcases hs with hc | hc | hc | hc
  all_goals
    rw [hc]
    revert n z p
    decide

section
variable {nzp : BitVec 3} {off : BitVec 9} {s : State}

theorem exec_br_of_taken (h : brTaken nzp s.cond = true) :
    exec (.br nzp off) s = .next (s.setPc (pcRel off s)) :=
  congrArg _ (if_pos h)

theorem exec_br_of_not_taken (h : ¬ brTaken nzp s.cond = true) : exec (.br nzp off) s = .next s :=
  congrArg _ (if_neg h)

end

theorem sext_eq_zero_iff {n : Nat} (v : BitVec n) (hn : n ≤ 16) : sext v = 0#16 ↔ v = 0#n := by
  rw [← BitVec.toInt_inj, ← BitVec.toInt_inj, sext, BitVec.toInt_signExtend_of_le hn,
    BitVec.toInt_zero, BitVec.toInt_zero]

theorem pcRel_eq_pc_iff {n : Nat} (off : BitVec n) (hn : n ≤ 16) (s : State) :
    pcRel off s = s.pc ↔ off = 0#n :=
  add_eq_left.trans (sext_eq_zero_iff off hn)

/-- But for offset 0, where pc is after BR shows whether it was taken. -/
theorem exec_br_pc_eq_pcRel_iff {nzp : BitVec 3} {off : BitVec 9} {s t : State} (hoff : off ≠ 0#9)
    (h : exec (.br nzp off) s = .next t) : t.pc = pcRel off s ↔ brTaken nzp s.cond = true := by
  by_cases hb : brTaken nzp s.cond = true
  · obtain rfl : s.setPc (pcRel off s) = t := by simpa [exec_br_of_taken hb] using h
    exact iff_of_true rfl hb
  · obtain rfl : s = t := by simpa [exec_br_of_not_taken hb] using h
    have hpc : pcRel off s ≠ s.pc := mt (pcRel_eq_pc_iff off (by decide) s).mp hoff
    exact iff_of_false hpc.symm hb

/-! ## The obligations -/

/-- Settles O30: the two clauses are `brTaken` and its negation. -/
theorem brMovesPcWhenMaskMeetsCond : Obligations.BrMovesPcWhenMaskMeetsCond := by
  intro nzp off s
  refine ⟨(fits_encode (.br nzp off)).decode_eq rfl, ?_⟩
  by_cases hb : brTaken nzp s.cond = true
  · have hmask : nzp &&& s.cond = 0b000#3 → nzp ≠ 0b111#3 → (s.setPc (pcRel off s)).pc = s.pc :=
      fun hand hall => absurd (brTaken_iff.mp hb) (not_or.mpr ⟨not_not.mpr hand, hall⟩)
    exact ⟨_, exec_br_of_taken hb, fun _ => rfl, hmask, State.reg_setPc s _, (KeptButRegsPc.refl s).setPc _⟩
  · exact ⟨s, exec_br_of_not_taken hb, fun htaken => absurd (brTaken_iff.mpr htaken) hb, fun _ _ => rfl,
      fun _ => rfl, KeptButRegsPc.refl s⟩

/-- Settles O31: the target is reached exactly when BR is taken, and a legal cond decides that by the
named flags. -/
theorem brIsTakenExactlyOnTheNamedFlags : Obligations.BrIsTakenExactlyOnTheNamedFlags :=
  fun n z p _ _ _ hlegal hoff h =>
    (exec_br_pc_eq_pcRel_iff hoff h).trans (brTaken_flags_iff n z p hlegal)

/-- Settles O32: the word fits JMP whatever its ignored bits are. -/
theorem jmpSetsPcFromTheRegister : Obligations.JmpSetsPcFromTheRegister :=
  fun _ _ _ s => ⟨(fits_jmp ..).decode_eq rfl, _, rfl, rfl, State.reg_setPc s _,
    (KeptButRegsPc.refl s).setPc _⟩

/-- Settles O33: the link does not move pc, so the target is relative to the old one. -/
theorem jsrLinksAndJumpsRelative : Obligations.JsrLinksAndJumpsRelative :=
  fun off s => ⟨(fits_encode (.jsr off)).decode_eq rfl, _, rfl, State.reg_link_seven s, rfl,
    fun _ => State.reg_link_ne s, (keptButRegsPc_link s).setPc _⟩

/-- Settles O34: BaseR is read in the state after the link, which differs from the state before in r7
alone. -/
theorem jsrrLinksBeforeReadingTheBase : Obligations.JsrrLinksBeforeReadingTheBase := by
  intro x2 base x6 s
  have hseven : base = 7 → s.link.reg base = s.pc := by
    rintro rfl
    exact State.reg_link_seven s
  exact ⟨(fits_jsrr ..).decode_eq rfl, _, rfl, State.reg_link_seven s, State.reg_link_ne s, hseven,
    fun _ => State.reg_link_ne s, (keptButRegsPc_link s).setPc _⟩

end Sys2Proof.Machine
end

section
/-! PROOFS. The entry of TRAP, and the services that neither wait nor read memory (44_trap.md R150, R153,
R157, R158). -/

namespace Sys2Proof.Machine

/-! ## The entry -/

theorem decode_trap_word (x4 : BitVec 4) (v : BitVec 8) : decode (0xF#4 ++ x4 ++ v) = decodeTrap v :=
  (fits_decodeTrap x4 v).decode_eq (wellFormed_decodeTrap v)

/-- The entry's link, whatever a service then does to the ports, the run state and the hold. -/
theorem keptByTrap_link (s : State) (out keys : List Byte) (arrivals : Schedule) (run : RunState)
    (hold : Option Hold) :
    KeptByTrap s { s.link with
      out := out, keys := keys, arrivals := arrivals, run := run, hold := hold } :=
  ⟨State.reg_link_seven s, fun _ => State.reg_link_ne s, rfl, rfl, State.word_link s⟩

theorem isServiceVector_eq_false {v : BitVec 8} (h : v.toNat < 0x20 ∨ 0x25 < v.toNat) :
    isServiceVector v = false := by
  simp only [isServiceVector, Bool.and_eq_false_iff, decide_eq_false_iff_not]
  omega

theorem toNat_lowByte (w : Word) : (lowByte w).toNat = w.toNat % 256 := by
  simp [lowByte]

/-! ## The obligations -/

/-- Settles O35: a vector with no service decodes to TRAP itself, whose one effect after the entry is the
fatal error. -/
theorem undefinedVectorIsFatal : Obligations.UndefinedVectorIsFatal := by
  refine fun x4 v s => ⟨fun hv => ?_, _, rfl, rfl, keptByTrap_link s .., ⟨rfl, rfl, rfl⟩, rfl⟩
  rw [decode_trap_word, decodeTrap_of_not_service (isServiceVector_eq_false hv)]

/-- Settles O39: r0 is read after the link, which does not touch it. -/
theorem outEmitsTheLowByteOfR0 : Obligations.OutEmitsTheLowByteOfR0 := by
  refine fun x4 s => ⟨decode_trap_word x4 0x21#8, _, _, rfl, rfl, ?_, keptByTrap_link s .., ⟨rfl, rfl⟩,
    rfl, rfl⟩
  rw [State.reg_link_zero, toNat_lowByte]

/-- Settles O45: the message and the halt are all that follows the entry. -/
theorem haltEndsTheRun : Obligations.HaltEndsTheRun :=
  fun x4 s => ⟨decode_trap_word x4 0x25#8, _, rfl, rfl, rfl, keptByTrap_link s .., ⟨rfl, rfl⟩, rfl⟩

end Sys2Proof.Machine
end

section
/-! PROOFS. GETC, IN and the hold (44_trap.md R152, R155, R159): one poll either holds or delivers the
oldest pending key, and the services differ in the prompt and the echo alone. -/

namespace Sys2Proof.Machine

/-! ## A key delivered -/

/-- What the service emits for the key it got (R152: GETC is unechoed; R155: IN echoes). -/
def Hold.echo (h : Hold) (b : Byte) : List Byte := if h = .inp then [b] else []

theorem deliverKey_eq (h : Hold) (b : Byte) (s : State) :
    deliverKey h b s = ((({ s with hold := none } : State).emitAll (h.echo b)).setReg 0
      (zext8 b)).setccIf Config.pTrapInSetsCond (zext8 b) := by
  cases h with
  | getc => simp [deliverKey, Hold.echo, State.emitAll]
  | inp => rfl

/-- `t` is `s` after the service that waits as `h` got the key `b`. -/
structure KeyDelivered (h : Hold) (b : Byte) (s t : State) : Prop where
  reg_zero : (t.reg 0).toNat = b.toNat
  regs : RegsKeptBut 0 s t
  cond : if Config.pTrapInSetsCond then CondShows (t.reg 0) t.cond else t.cond = s.cond
  out : t.out = s.out ++ h.echo b
  keys : ∃ n, KeysTaken [b] n s t
  pc : t.pc = s.pc
  mem : MemKept s t
  run : t.run = s.run
  hold : t.hold = none

theorem condShows_setccIf (p : Bool) (v : Word) (s : State) :
    if p then CondShows v (s.setccIf p v).cond else (s.setccIf p v).cond = s.cond := by
  cases p with
  | true => exact condShows_condOf v
  | false => rfl

theorem awaitKey_keyDelivered (h : Hold) {s : State} {b : Byte} {rest : List Byte}
    (hp : pendingNow s = b :: rest) : KeyDelivered h b s (awaitKey h s) := by
  have hkeys : KeysTaken [b] 2 s (awaitKey h s) := awaitKey_keysTaken_of_pending hp
  rw [awaitKey_of_pending hp, deliverKey_eq] at hkeys ⊢
  exact
    { reg_zero := by
        rw [State.reg_setccIf, State.reg_setReg_same]
        exact BitVec.toNat_setWidth_of_le (by decide)
      regs := fun r hr => by
        rw [State.reg_setccIf, State.reg_setReg_ne _ _ hr]; rfl
      cond := by
        rw [State.reg_setccIf, State.reg_setReg_same]
        exact condShows_setccIf ..
      out := rfl
      keys := ⟨2, hkeys⟩
      pc := rfl
      mem := fun _ => rfl
      run := rfl
      hold := rfl }

section
variable {h : Hold} {b : Byte} {s u t : State}

/-- A key that arrives after the entry of TRAP does not touch the link. -/
theorem KeyDelivered.reg_seven (hd : KeyDelivered h b u t) (hu : KeptByTrap s u) : t.reg 7 = s.pc := by
  obtain ⟨hlink, -⟩ := hu
  exact (hd.regs 7 (by decide)).trans hlink

theorem KeyDelivered.regs_of_entry (hd : KeyDelivered h b u t) (hu : KeptByTrap s u) (r : Reg)
    (hr0 : r ≠ 0) (hr7 : r ≠ 7) : t.reg r = s.reg r := by
  obtain ⟨-, hregs, -⟩ := hu
  exact (hd.regs r hr0).trans (hregs r hr7)

end

/-! ## The obligations -/

/-- Settles O36: GETC is one poll after the link. -/
theorem getcReadsOneKeyOrHolds : Obligations.GetcReadsOneKeyOrHolds := by
  intro x4 s
  refine ⟨decode_trap_word x4 0x20#8, fun b rest hp => ?_, fun hp => ?_⟩
  · have hentry : KeptByTrap s s.link := keptByTrap_link s ..
    have hd := awaitKey_keyDelivered .getc (s := s.link) hp
    exact ⟨_, rfl, hd.reg_zero, hd.reg_seven hentry, hd.regs_of_entry hentry, hd.cond,
      hd.out.trans (List.append_nil _), hd.keys, hd.pc, hd.mem, hd.run, hd.hold⟩
  · have hkeys := awaitKey_keysTaken_of_none (h := .getc) hp
    rw [awaitKey_of_none hp] at hkeys
    exact ⟨_, congrArg Host.Outcome.next (awaitKey_of_none (s := s.link) hp), rfl,
      keptByTrap_link s .., rfl, ⟨1, hkeys⟩, rfl⟩

/-- Settles O37: IN is one poll after the link and the prompt. -/
theorem inPromptsEchoesAndReadsOneKey : Obligations.InPromptsEchoesAndReadsOneKey := by
  intro x4 s
  refine ⟨decode_trap_word x4 0x23#8, fun b rest hp => ?_, fun hp => ?_⟩
  · have hentry : KeptByTrap s (s.link.emitAll Config.pInPrompt) := keptByTrap_link s ..
    have hd := awaitKey_keyDelivered .inp (s := s.link.emitAll Config.pInPrompt) hp
    exact ⟨_, rfl, hd.reg_zero, hd.reg_seven hentry, hd.regs_of_entry hentry, hd.cond, hd.out,
      hd.keys, hd.pc, hd.mem, hd.run, hd.hold⟩
  · have hkeys := awaitKey_keysTaken_of_none (h := .inp) hp
    rw [awaitKey_of_none hp] at hkeys
    exact ⟨_, congrArg Host.Outcome.next (awaitKey_of_none (s := s.link.emitAll Config.pInPrompt) hp),
      rfl, keptByTrap_link s .., rfl, ⟨1, hkeys⟩, rfl⟩

/-- Settles O38: a step of a held block is one poll of its service. -/
theorem holdEndsOnlyWithAKey : Obligations.HoldEndsOnlyWithAKey := by
  intro s h hr hh
  rw [step_of_hold hr hh]
  refine ⟨fun hp => by rw [awaitKey_of_none hp, ← hh], fun b rest hp => ?_⟩
  have hd : KeyDelivered h b s (awaitKey h s) := awaitKey_keyDelivered h hp
  exact ⟨_, rfl, hd.hold, hd.reg_zero, hd.regs, hd.out, hd.keys, hd.cond, hd.pc, hd.mem,
    hd.run.trans hr⟩

end Sys2Proof.Machine
end

section
/-! PROOFS. PUTS and PUTSP (44_trap.md R154, R156): the loop's equations from every address, and the words
below the device page, each of which the loop emits and goes past. -/

namespace Sys2Proof.Machine

/-! ## The bound of a walk -/

theorem walkBound_eq_succ (a : Word) : 65536 - a.toNat = 65535 - a.toNat + 1 := by
  have := a.isLt
  omega

/-- After a read that answers, the next address does not wrap: the read of 0xFFFF is fatal. -/
theorem walkBound_next {a : Word} {s : State} {p : Word × State} (h : memRead a s = some p) :
    65536 - (a + 1#16).toNat = 65535 - a.toNat := by
  have hne : a ≠ 0xFFFF#16 := by
    rintro rfl
    rw [memRead_unmapped (.inr (by decide))] at h
    cases h
  bv_omega

theorem toNat_add_ofNat {a : Word} {n : Nat} (h : a.toNat + n < 0x10000) :
    (a + BitVec.ofNat 16 n).toNat = a.toNat + n := by
  rw [BitVec.toNat_add, BitVec.toNat_ofNat]
  omega

theorem memRead_offset_below_page {a : Word} {n : Nat} (h : a.toNat + n < 0xFE00) (s : State) :
    memRead (a + BitVec.ofNat 16 n) s = some (s.word (a + BitVec.ofNat 16 n), s) :=
  memRead_below_page (by rw [toNat_add_ofNat (by omega)]; exact h) s

theorem add_ofNat_succ (a : Word) (n : Nat) :
    a + BitVec.ofNat 16 (n + 1) = a + BitVec.ofNat 16 n + 1#16 := by
  rw [BitVec.ofNat_add, ← BitVec.add_assoc]

theorem State.emitAll_emitAll (s : State) (cs ds : List Byte) :
    (s.emitAll cs).emitAll ds = s.emitAll (cs ++ ds) := by
  simp [State.emitAll]

/-! ## The loop of PUTS -/

section
variable {a w : Word} {s t : State}

theorem putsFrom_of_fault (h : memRead a s = none) :
    putsFrom a s = s.raise (.unimplementedMemoryMap a) := by
  rw [putsFrom, walkBound_eq_succ, putsWalk, withRead_of_none h]

theorem putsFrom_of_read (h : memRead a s = some (w, t)) :
    putsFrom a s = if w = 0#16 then t else putsFrom (a + 1#16) (t.emit (lowByte w)) := by
  rw [putsFrom, walkBound_eq_succ, putsWalk, withRead_of_some h, putsFrom, walkBound_next h]

theorem putsFrom_of_zero (h : memRead a s = some (w, t)) (hw : w = 0#16) : putsFrom a s = t :=
  (putsFrom_of_read h).trans (if_pos hw)

theorem putsFrom_of_ne_zero (h : memRead a s = some (w, t)) (hw : w ≠ 0#16) :
    putsFrom a s = putsFrom (a + 1#16) (t.emit (lowByte w)) :=
  (putsFrom_of_read h).trans (if_neg hw)

end

theorem exec_puts (s : State) : exec .puts s = .next (putsFrom (s.reg 0) s.link) := by
  rw [← State.reg_link_zero s]
  rfl

theorem lowBytes_succ (s : State) (a : Word) (n : Nat) :
    lowBytes s a (n + 1) = lowBytes s a n ++ [lowByte (s.word (a + BitVec.ofNat 16 n))] := by
  simp [lowBytes, List.range_succ, lowByte]

/-- The loop of PUTS goes past nonzero words below the device page, emitting their low bytes. -/
theorem putsFrom_of_nonzero_words {a : Word} {s : State} {n : Nat} (hpage : a.toNat + n ≤ 0xFE00)
    (hne : ∀ i < n, s.word (a + BitVec.ofNat 16 i) ≠ 0#16) :
    putsFrom a s = putsFrom (a + BitVec.ofNat 16 n) (s.emitAll (lowBytes s a n)) := by
  induction n with
  | zero => simp [lowBytes, State.emitAll]
  | succ n ih =>
    have hread := memRead_offset_below_page (a := a) (n := n) (by omega) (s.emitAll (lowBytes s a n))
    rw [ih (by omega) fun i hi => hne i (by omega), putsFrom_of_ne_zero hread (hne n (by omega)),
      ← add_ofNat_succ, lowBytes_succ, ← State.emitAll_emitAll]
    rfl

theorem exec_puts_of_nonzero_words {s : State} {n : Nat} (hpage : (s.reg 0).toNat + n ≤ 0xFE00)
    (hne : ∀ i < n, s.word (s.reg 0 + BitVec.ofNat 16 i) ≠ 0#16) :
    exec .puts s = .next (putsFrom (s.reg 0 + BitVec.ofNat 16 n)
      (s.link.emitAll (lowBytes s (s.reg 0) n))) := by
  rw [exec_puts, putsFrom_of_nonzero_words (s := s.link) hpage hne]
  rfl

theorem memRead_at_kbsr (s : State) :
    memRead 0xFE00#16 s = some (if pendingNow s = [] then 0x0000#16 else 0x8000#16, s.land) :=
  congrArg some (kbsrRead_eq s)

/-- KBSR reads as the zero word where no key is pending. -/
theorem putsFrom_kbsr_of_none {s : State} (hp : pendingNow s = []) :
    putsFrom 0xFE00#16 s = s.land := by
  have hread : memRead 0xFE00#16 s = some (0x0000#16, s.land) := by
    rw [memRead_at_kbsr, if_pos hp]
  exact putsFrom_of_zero hread rfl

/-- With a key pending KBSR is 0x8000, no zero word, and the address after it is unmapped. -/
theorem putsFrom_kbsr_of_pending {s : State} (hp : pendingNow s ≠ []) :
    putsFrom 0xFE00#16 s = (s.land.emit 0x00#8).raise (.unimplementedMemoryMap 0xFE01#16) := by
  have hread : memRead 0xFE00#16 s = some (0x8000#16, s.land) := by
    rw [memRead_at_kbsr, if_neg hp]
  exact (putsFrom_of_ne_zero hread (by decide)).trans
    (putsFrom_of_fault (memRead_unmapped (.inl rfl) _))

/-! ## The loop of PUTSP -/

section
variable {a w : Word} {s t : State}

theorem putspFrom_of_fault (h : memRead a s = none) :
    putspFrom a s = s.raise (.unimplementedMemoryMap a) := by
  rw [putspFrom, walkBound_eq_succ, putspWalk, withRead_of_none h]

theorem putspFrom_of_read (h : memRead a s = some (w, t)) :
    putspFrom a s =
      if lowByte w = 0#8 then t
      else if highByte w = 0#8 then t.emit (lowByte w)
      else putspFrom (a + 1#16) ((t.emit (lowByte w)).emit (highByte w)) := by
  rw [putspFrom, walkBound_eq_succ, putspWalk, withRead_of_some h, putspFrom, walkBound_next h]

theorem putspFrom_of_low_zero (h : memRead a s = some (w, t)) (hlo : lowByte w = 0#8) :
    putspFrom a s = t :=
  (putspFrom_of_read h).trans (if_pos hlo)

theorem putspFrom_of_high_zero (h : memRead a s = some (w, t)) (hlo : lowByte w ≠ 0#8)
    (hhi : highByte w = 0#8) : putspFrom a s = t.emitAll [lowByte w] := by
  rw [putspFrom_of_read h, if_neg hlo, if_pos hhi]
  rfl

theorem putspFrom_of_ne_zero (h : memRead a s = some (w, t)) (hlo : lowByte w ≠ 0#8)
    (hhi : highByte w ≠ 0#8) :
    putspFrom a s = putspFrom (a + 1#16) (t.emitAll [lowByte w, highByte w]) := by
  rw [putspFrom_of_read h, if_neg hlo, if_neg hhi]
  exact congrArg _ (State.emitAll_emitAll t [lowByte w] [highByte w])

end

theorem exec_putsp (s : State) : exec .putsp s = .next (putspFrom (s.reg 0) s.link) := by
  rw [← State.reg_link_zero s]
  rfl

theorem packedBytes_succ (s : State) (a : Word) (n : Nat) :
    packedBytes s a (n + 1) = packedBytes s a n ++
      [lowByte (s.word (a + BitVec.ofNat 16 n)), highByte (s.word (a + BitVec.ofNat 16 n))] := by
  simp [packedBytes, List.range_succ, lowByte, highByte]

/-- The loop of PUTSP goes past words below the device page that have no zero byte, emitting both bytes
of each. -/
theorem putspFrom_of_nonzero_bytes {a : Word} {s : State} {n : Nat} (hpage : a.toNat + n ≤ 0xFE00)
    (hne : ∀ c ∈ packedBytes s a n, c ≠ 0#8) :
    putspFrom a s = putspFrom (a + BitVec.ofNat 16 n) (s.emitAll (packedBytes s a n)) := by
  induction n with
  | zero => simp [packedBytes, State.emitAll]
  | succ n ih =>
    rw [packedBytes_succ] at hne
    have hread := memRead_offset_below_page (a := a) (n := n) (by omega)
      (s.emitAll (packedBytes s a n))
    rw [ih (by omega) fun c hc => hne c (List.mem_append_left _ hc),
      putspFrom_of_ne_zero hread (hne _ (by simp)) (hne _ (by simp)), State.emitAll_emitAll,
      ← add_ofNat_succ, packedBytes_succ]
    rfl

theorem exec_putsp_of_nonzero_bytes {s : State} {n : Nat} (hpage : (s.reg 0).toNat + n ≤ 0xFE00)
    (hne : ∀ c ∈ packedBytes s (s.reg 0) n, c ≠ 0#8) :
    exec .putsp s = .next (putspFrom (s.reg 0 + BitVec.ofNat 16 n)
      (s.link.emitAll (packedBytes s (s.reg 0) n))) := by
  rw [exec_putsp, putspFrom_of_nonzero_bytes (s := s.link) hpage hne]
  rfl

theorem lowByte_append (hi lo : Byte) : lowByte (hi ++ lo) = lo := by
  rw [lowByte, BitVec.extractLsb'_append_eq_right]

theorem highByte_append (hi lo : Byte) : highByte (hi ++ lo) = hi := by
  rw [highByte, BitVec.extractLsb'_append_eq_left]

/-! ## The obligations -/

/-- Settles O41: the bound of the walk is never what ends it. -/
theorem putsFollowsItsLoop : Obligations.PutsFollowsItsLoop :=
  ⟨exec_puts, fun _ _ => ⟨putsFrom_of_fault, fun _ h => putsFrom_of_zero h rfl,
    fun _ _ hw h => putsFrom_of_ne_zero h hw⟩⟩

/-- Settles O40: the loop goes past the nonzero words and ends at the zero word. -/
theorem putsEmitsWordsUpToTheZeroWord : Obligations.PutsEmitsWordsUpToTheZeroWord := by
  refine fun x4 s n => ⟨decode_trap_word x4 0x22#8, fun hpage hne hzero => ?_⟩
  have hread := memRead_offset_below_page hpage (s.link.emitAll (lowBytes s (s.reg 0) n))
  rw [exec_puts_of_nonzero_words hpage.le hne, putsFrom_of_zero hread hzero]
  exact ⟨_, rfl, rfl, keptByTrap_link s .., ⟨rfl, rfl⟩, rfl, rfl⟩

/-- Settles O42: the loop goes past the nonzero words and reads KBSR at 0xFE00. -/
theorem putsStopsOrFaultsAtTheDevicePage : Obligations.PutsStopsOrFaultsAtTheDevicePage := by
  intro s n hpage hne
  have hkbsr : s.reg 0 + BitVec.ofNat 16 n = 0xFE00#16 :=
    BitVec.eq_of_toNat_eq ((toNat_add_ofNat (by omega)).trans hpage)
  have hkeys : KeysTaken [] 1 s s.land := .land s
  rw [exec_puts_of_nonzero_words hpage.le hne, hkbsr]
  rw [land_eq] at hkeys
  constructor
  · intro hp
    rw [putsFrom_kbsr_of_none (s := s.link.emitAll _) hp, land_eq]
    exact ⟨_, rfl, rfl, keptByTrap_link s .., ⟨rfl, rfl⟩, 1, hkeys⟩
  · intro hp
    rw [putsFrom_kbsr_of_pending (s := s.link.emitAll _) hp, land_eq]
    exact ⟨_, rfl, rfl, rfl, keptByTrap_link s .., rfl, 1, hkeys⟩

/-- Settles O44: the bound of the walk is never what ends it. -/
theorem putspFollowsItsLoop : Obligations.PutspFollowsItsLoop := by
  refine ⟨exec_putsp, fun a s => ⟨putspFrom_of_fault, fun lo hi u h => ?_⟩⟩
  have hlow := lowByte_append hi lo
  have hhigh := highByte_append hi lo
  refine ⟨fun hlo => ?_, fun hlo hhi => ?_, fun hlo hhi => ?_⟩
  · exact putspFrom_of_low_zero h (hlow.trans hlo)
  · rw [putspFrom_of_high_zero h (hlow.trans_ne hlo) (hhigh.trans hhi), hlow]
    rfl
  · rw [putspFrom_of_ne_zero h (hlow.trans_ne hlo) (hhigh.trans_ne hhi), hlow, hhigh]
    rfl

/-- Settles O43: the loop goes past the words without a zero byte and ends in the word after them. -/
theorem putspEmitsPackedBytesUpToTheZeroByte : Obligations.PutspEmitsPackedBytesUpToTheZeroByte := by
  refine fun x4 s n => ⟨decode_trap_word x4 0x24#8, fun hpage hne => ?_⟩
  have hread := memRead_offset_below_page hpage (s.link.emitAll (packedBytes s (s.reg 0) n))
  have hexec := exec_putsp_of_nonzero_bytes hpage.le hne
  refine ⟨fun hlo => ?_, fun hlo hhi => ?_⟩
  · rw [hexec, putspFrom_of_low_zero hread hlo]
    exact ⟨_, rfl, rfl, keptByTrap_link s .., ⟨rfl, rfl⟩, rfl, rfl⟩
  · rw [hexec, putspFrom_of_high_zero hread hlo hhi]
    exact ⟨_, rfl, rfl, keptByTrap_link s .., ⟨rfl, rfl⟩, rfl, rfl⟩

end Sys2Proof.Machine
end

section
/-! PROOFS. What every step keeps of the output history and of the hold (44_trap.md R159, R160). -/

namespace Sys2Proof.Machine

/-! ## The output history -/

theorem out_extends_keptByUpdates (out : List Byte) : KeptByUpdates fun u => ∃ cs, u.out = out ++ cs where
  setReg _ _ _ h := h
  setcc _ _ h := h
  setPc _ _ h := h
  setWord _ _ _ h := h
  setRun _ _ h := h
  emitAll _ ds := fun ⟨cs, h⟩ => ⟨cs ++ ds, by rw [State.emitAll_out, h, List.append_assoc]⟩
  setHold _ _ h := h
  setKeys _ _ _ h := h

theorem out_keptByUpdatesOf {i : Instr} (hi : emitsOutput i = false) (out : List Byte) :
    KeptByUpdatesOf i fun u => u.out = out where
  emitAll he := absurd he (by simp [hi])

/-! ## The hold -/

/-- No instruction moves both the hold and run: GETC and IN move the hold alone, and no other
instruction moves it. The cases left to the end neither read memory nor wait for a key. -/
theorem exec_hold_or_run {i : Instr} {s t : State} (h : exec i s = .next t) :
    t.hold = s.hold ∨ t.run = s.run := by
  have hread : ∀ a v t u, t.hold = s.hold → memRead a t = some (v, u) → u.hold = s.hold :=
    fun _ _ _ _ h e => (memRead_leftByReads e).runKept.2.trans h
  have hraise : ∀ a (t : State), t.hold = s.hold → (t.raise (.unimplementedMemoryMap a)).hold = s.hold :=
    fun _ _ h => h
  have hemit : ∀ c (t : State), t.hold = s.hold → (t.emit c).hold = s.hold := fun _ _ h => h
  have hwithRead {a : Word} {u : State} {k : Word → State → State} (hu : u.hold = s.hold)
      (hk : ∀ v (t : State), t.hold = s.hold → (k v t).hold = s.hold) : (withRead a u k).hold = s.hold :=
    withRead_keeps (P := fun t => t.hold = s.hold) hu hread hraise fun v t _ => hk v t
  cases i <;> cases h
  case br nzp off => cases brTaken nzp s.cond <;> exact .inl rfl
  case ld => exact .inl (hwithRead rfl fun _ _ h => h)
  case ldr => exact .inl (hwithRead rfl fun _ _ h => h)
  case ldi => exact .inl (hwithRead rfl fun _ _ h => hwithRead h fun _ _ h => h)
  case sti => exact .inl (hwithRead rfl fun _ _ h => h)
  case getc => exact .inr (awaitKey_run _ _)
  case inp => exact .inr (awaitKey_run _ _)
  case puts => exact .inl (putsWalk_keeps (P := fun t => t.hold = s.hold) hread hraise hemit _ _ _ rfl)
  case putsp => exact .inl (putspWalk_keeps (P := fun t => t.hold = s.hold) hread hraise hemit _ _ _ rfl)
  all_goals exact .inl rfl

/-! ## The obligations -/

/-- Settles O52: every update leaves the history or adds to its end, and only the emitting services are
allowed one that adds. -/
theorem outputHistoryOnlyGrows : Obligations.OutputHistoryOnlyGrows :=
  ⟨fun s _ h => (out_extends_keptByUpdates s.out).step ⟨[], (List.append_nil _).symm⟩ h,
    fun _ s _ h hi => (out_keptByUpdatesOf hi s.out).exec rfl h⟩

/-- Settles O59: a cycle starts with no hold, and an instruction that sets one leaves run RUNNING. -/
theorem stepKeepsHoldOnlyWhileRunning : Obligations.StepKeepsHoldOnlyWhileRunning := by
  intro s t hs h hne
  rcases step_cases h with ⟨-, rfl⟩ | ⟨hr, hd, -, rfl⟩ | ⟨hr, hh, w, u, hu, he⟩ | ⟨-, hh, -, rfl⟩ | ⟨-, rfl⟩
  · rfl
  · exact (awaitKey_run hd s).trans hr
  · rw [(advance_of_fetch hu).2] at he
    obtain ⟨hrun, hhold⟩ := (memRead_leftByReads hu).runKept
    rcases exec_hold_or_run he with ht | ht
    · exact absurd (ht.trans (hhold.trans hh)) hne
    · exact ht.trans (hrun.trans hr)
  · exact absurd hh hne
  · exact hs hne

end Sys2Proof.Machine
end

section
/-! PROOFS. The opcodes that are always fatal (45_reserved.md R170, R171): both raise their cause in the
state that the increment left, and do nothing else. -/

namespace Sys2Proof.Machine

/-! ## What a fatal error leaves unchanged -/

/-- All but the run state. -/
def KeptButRun (s t : State) : Prop :=
  RegsKept s t ∧ t.cond = s.cond ∧ t.pc = s.pc ∧ MemKept s t ∧ PortsKept s t ∧ t.hold = s.hold

theorem keptButRun_raise (s : State) (c : Cause) : KeptButRun s (s.raise c) :=
  ⟨State.reg_raise s c, State.raise_cond s c, State.raise_pc s c, State.word_raise s c,
    ⟨State.raise_out s c, State.raise_keys s c, State.raise_arrivals s c⟩, State.raise_hold s c⟩

section
variable (x12 : BitVec 12) (s : State)

theorem exec_rti : exec (.rti x12) s = .next (s.raise (.privilegeViolation (0x8#4 ++ x12))) := rfl

theorem exec_res : exec (.res x12) s = .next (s.raise (.illegalInstruction (0xD#4 ++ x12))) := rfl

end

/-! ## The obligations -/

/-- Settles O46: the decoder keeps the ignored bits, so the cause carries the whole word. -/
theorem rtiIsAlwaysPrivilegeViolation : Obligations.RtiIsAlwaysPrivilegeViolation :=
  fun x12 s => ⟨(fits_encode (.rti x12)).decode_eq rfl, _, exec_rti x12 s, State.raise_run s _,
    keptButRun_raise s _⟩

/-- Settles O47: as RTI, with RES's own opcode and cause. -/
theorem resIsAlwaysIllegalInstruction : Obligations.ResIsAlwaysIllegalInstruction :=
  fun x12 s => ⟨(fits_encode (.res x12)).decode_eq rfl, _, exec_res x12 s, State.raise_run s _,
    keptButRun_raise s _⟩

end Sys2Proof.Machine
end

section
/-! PROOFS. Loading an image and starting the run (70_reset_and_hazards.md R211 to R214): what words a
byte stream holds, what the loader does with them, and where its stores leave them. -/

namespace Sys2Proof.Machine

/-! ## The words of a byte stream -/

theorem imageWords_imageBytes (ws : List Word) : imageWords (imageBytes ws) = some ws := by
  induction ws with
  | nil => rfl
  | cons w ws ih =>
    have hbytes : imageBytes (w :: ws) =
        w.extractLsb' 8 8 :: w.extractLsb' 0 8 :: imageBytes ws := rfl
    rw [hbytes, imageWords, ih, Option.map_some, append_bytes]

theorem imageWords_of_odd {bytes : List Byte} (h : bytes.length % 2 = 1) : imageWords bytes = none := by
  induction bytes using imageWords.induct with
  | case1 => cases h
  | case2 => rfl
  | case3 hi lo rest ih =>
    have hrest : rest.length % 2 = 1 := by
      rw [List.length_cons, List.length_cons] at h
      omega
    rw [imageWords, ih hrest, Option.map_none]

/-! ## What the loader does with a stream -/

/-- The image yields no origin word: its file cannot be read, a byte has no partner, or there is no byte
(R212, R213). -/
def NoHeader (image : Option (List Byte)) : Prop :=
  image.bind imageWords = none ∨ image.bind imageWords = some []

theorem noHeader_of_short {image : Option (List Byte)}
    (h : ∀ bytes, image = some bytes → bytes.length < 2) : NoHeader image := by
  match image, h with
  | none, _ => exact .inl rfl
  | some [], _ => exact .inr rfl
  | some [_], _ => exact .inl rfl
  | some (_ :: _ :: _), h => exact absurd (h _ rfl) (by simp)

section
variable {image : Option (List Byte)} {origin : Word} {ws : List Word} {s : State}

theorem load_of_noHeader (hs : s.run = .loaded) (h : NoHeader image) :
    s.load image = s.raise .loadError := by
  rw [State.load, if_neg (not_not_intro hs)]
  rcases h with h | h <;> rw [h]

theorem load_of_fits (hs : s.run = .loaded) (h : image.bind imageWords = some (origin :: ws))
    (hfit : origin.toNat + ws.length ≤ 0x10000) : s.load image = s.storeWords origin ws := by
  rw [State.load, if_neg (not_not_intro hs), h]
  exact if_pos hfit

theorem load_of_past_top (hs : s.run = .loaded) (h : image.bind imageWords = some (origin :: ws))
    (hpast : 0x10000 < origin.toNat + ws.length) : s.load image = s.raise .loadError := by
  rw [State.load, if_neg (not_not_intro hs), h]
  exact if_neg (Nat.not_le_of_lt hpast)

end

/-! ## Where the stores leave the words -/

theorem add_one_add_ofNat (a : Word) (n : Nat) :
    a + 1#16 + BitVec.ofNat 16 n = a + BitVec.ofNat 16 (n + 1) := by
  rw [add_ofNat_succ a n, add_right_comm]

theorem ne_add_ofNat {a : Word} {n : Nat} (hpos : 0 < n) (hn : n < 0x10000) :
    a ≠ a + BitVec.ofNat 16 n := by
  bv_omega

theorem word_storeWords_of_ne {b : Word} (ws : List Word) :
    ∀ (a : Word) (s : State), (∀ i < ws.length, b ≠ a + BitVec.ofNat 16 i) →
      (s.storeWords a ws).word b = s.word b := by
  induction ws with
  | nil => exact fun _ _ _ => rfl
  | cons w ws ih =>
    intro a s h
    have hhead : b ≠ a := by simpa using h 0 (Nat.succ_pos _)
    have htail : ∀ i < ws.length, b ≠ a + 1#16 + BitVec.ofNat 16 i := fun i hi => by
      rw [add_one_add_ofNat]
      exact h (i + 1) (Nat.succ_lt_succ hi)
    exact (ih _ _ htail).trans (State.word_setWord_ne s w hhead)

/-- No store overwrites another, since there are at most as many words as addresses. -/
theorem word_storeWords (ws : List Word) (hlen : ws.length ≤ 0x10000) :
    ∀ (a : Word) (s : State) (i : Nat) (h : i < ws.length),
      (s.storeWords a ws).word (a + BitVec.ofNat 16 i) = ws[i] := by
  induction ws with
  | nil => exact fun _ _ i h => absurd h (Nat.not_lt_zero i)
  | cons w ws ih =>
    rw [List.length_cons] at hlen
    intro a s i h
    cases i with
    | zero =>
      have hlater : ∀ i < ws.length, a ≠ a + 1#16 + BitVec.ofNat 16 i := fun i hi => by
        rw [add_one_add_ofNat]
        exact ne_add_ofNat (Nat.succ_pos i) (by omega)
      rw [BitVec.add_zero]
      exact (word_storeWords_of_ne ws _ _ hlater).trans (State.word_setWord_same s a w)
    | succ i =>
      rw [← add_one_add_ofNat]
      exact ih (by omega) _ _ i (Nat.lt_of_succ_lt_succ h)

/-! ## The start -/

theorem step_of_loaded {s : State} (h : s.run = .loaded) : step s = .next s.start := by
  rw [step, h]

/-! ## The obligations -/

/-- Settles O8: an image that fits is stored word by word over the memory of creation. -/
theorem loaderPlacesBigEndianWordsFromTheOrigin :
    Obligations.LoaderPlacesBigEndianWordsFromTheOrigin := by
  intro origin ws keys arrivals hfit
  have hload : State.launch (some (imageBytes (origin :: ws))) keys arrivals =
      State.storeWords origin ws { State.reset with keys := keys, arrivals := arrivals } :=
    load_of_fits rfl (imageWords_imageBytes _) hfit
  rw [hload]
  exact ⟨word_storeWords ws (by omega) origin _,
    fun a ha => (word_storeWords_of_ne ws origin _ ha).trans (word_reset a),
    storeWords_frame ws origin _⟩

/-- Settles O10: both shapes end in the raise of LoadError, which changes run alone. -/
theorem illShapedImageIsRefused : Obligations.IllShapedImageIsRefused :=
  fun _ _ =>
    ⟨fun _ hodd => load_of_noHeader rfl (.inl (imageWords_of_odd hodd)),
      fun _ _ hpast => load_of_past_top rfl (imageWords_imageBytes _) hpast⟩

/-- Settles O11: the loader leaves pc at its value of creation, and the step of a LOADED state is the
start. -/
theorem firstCycleFetchesFromLoadOrigin : Obligations.FirstCycleFetchesFromLoadOrigin := by
  intro image keys arrivals hrun
  obtain ⟨-, -, -, -, -, -, hpc⟩ := resetLeavesTheStatedValues
  exact ⟨hpc image keys arrivals, step_of_loaded hrun⟩

/-- Settles O9: without a header the loader raises LoadError, and a header alone leaves no word to
store. -/
theorem badHeaderIsLoadErrorAndBareHeaderIsNoLoad :
    Obligations.BadHeaderIsLoadErrorAndBareHeaderIsNoLoad := by
  intro keys arrivals
  refine ⟨fun image hshort => ?_, fun hi lo => ?_⟩
  · have hload : State.launch image keys arrivals =
        State.raise .loadError { State.reset with keys := keys, arrivals := arrivals } :=
      load_of_noHeader rfl (noHeader_of_short hshort)
    have hrun : (State.launch image keys arrivals).run = .faulted .loadError := by
      rw [hload, State.raise_run]
    exact ⟨hrun, step_of_faulted hrun⟩
  · exact load_of_fits (origin := hi ++ lo) (ws := []) rfl rfl (hi ++ lo).isLt.le

end Sys2Proof.Machine
end

section
/-! PROOFS. The ready status of the keyboard (70_reset_and_hazards.md R218, 20_memory.md R71): a key that
KBSR showed stays the first one pending until the block takes it. -/

namespace Sys2Proof.Machine

theorem pending_of_ready_status {s u : State} (h : memRead 0xFE00#16 s = some (0x8000#16, u)) :
    u.keys ≠ [] := by
  rw [memRead_at_kbsr, Option.some.injEq, Prod.mk.injEq] at h
  obtain ⟨hstatus, rfl⟩ := h
  rw [land_eq]
  intro hnone
  rw [if_pos hnone] at hstatus
  cases hstatus

/-- Keys appended to the channel, by the host's schedule too, stand behind the first one. -/
theorem pendingNow_of_keys_append {u v : State} {b : Byte} {rest ks : List Byte}
    (hu : u.keys = b :: rest) (hv : v.keys = u.keys ++ ks) :
    pendingNow v = b :: (rest ++ ks ++ v.arrivals.next) := by
  rw [pendingNow, hv, hu]; rfl

theorem KeyDelivered.reg_zero_eq {h : Hold} {b : Byte} {s t : State} (hd : KeyDelivered h b s t) :
    t.reg 0 = b.setWidth 16 :=
  BitVec.eq_of_toNat_eq (hd.reg_zero.trans (BitVec.toNat_setWidth_of_le (by decide)).symm)

/-- Settles O17: each of the three transactions finds the same first pending key. -/
theorem readyStatusGuaranteesAFreshKey : Obligations.ReadyStatusGuaranteesAFreshKey := by
  intro s u hready
  obtain ⟨b, rest, hu⟩ := List.exists_cons_of_ne_nil (pending_of_ready_status hready)
  refine ⟨b, rest, hu, fun v ks hv => ?_⟩
  have hp : pendingNow v = b :: (rest ++ ks ++ v.arrivals.next) := pendingNow_of_keys_append hu hv
  have hgetc := awaitKey_keyDelivered .getc (s := v.link) hp
  have hinp := awaitKey_keyDelivered .inp (s := v.link.emitAll Config.pInPrompt) hp
  exact ⟨⟨_, congrArg some (kbdrRead_of_pending hp)⟩, ⟨_, rfl, hgetc.reg_zero_eq, hgetc.hold⟩,
    ⟨_, rfl, hinp.reg_zero_eq, hinp.hold⟩⟩

end Sys2Proof.Machine
end
